-- ==== Sys2Proof/Word.lean ====
section
/-! DEFINITION. The words of the machine: bytes; the payload registers, whose number is a literal of the source, stand
in `Config`. Positions in the bit buffer are natural numbers (R104: "A model takes all of them in ℕ"). -/

namespace Sys2Proof

/-- An 8-bit value; bit 0 is the least significant bit (R5 (c)). -/
abbrev Byte := BitVec 8

end Sys2Proof
end

