-- ==== Sys2Proof/Config.lean ====
section
/-! DEFINITION. The implementation parameters (R4) and the literals taken from the source (R9), each a
named constant so that a later audit changes one definition (U11, log 25). The claims' own vocabulary
(`Safety.lean`, the statements) writes the spec's numbers out, so that a constant changed here alone makes a
statement false. -/

namespace Sys2Proof

/-- `MC_ONE`: the raw pair that decodes to 1 (R4, R62); two legal values. -/
inductive McOne
  | pair01
  | pair10
  deriving DecidableEq, Repr

/-- `RESUME_AT`: where scanning resumes after a candidate (R4, R100, R101); two legal values. -/
inductive ResumeAt
  | afterPreamble
  | afterDecode
  deriving DecidableEq, Repr

namespace Config

/-- `PRE_LEN` (R4, R9). -/
@[simp] abbrev preLen : Nat := 8

/-- `PREAMBLE` (R4, R9, R61), the bit that comes first in the stream written leftmost. -/
def preamble : BitVec preLen := 0b01011000#8

/-- `RAW_LEN`: raw bits of a frame body (R4, R9). -/
@[simp] def rawLen : Nat := 128

/-- `DEC_LEN`: decoded bits of a candidate (R4, R9). -/
@[simp] abbrev decLen : Nat := 64

/-- Raw bits of a symbol: the 2:1 line coding (R9: "128 / 2 = 64"; R62). -/
@[simp] abbrev symLen : Nat := 2

/-- `GUARD_LEN` = `PRE_LEN` + `RAW_LEN`, 136 (R4, R9). -/
@[simp] def guardLen : Nat := preLen + rawLen

/-- `POST_LEN` (R4, R9). -/
@[simp] abbrev postLen : Nat := 2

/-- `POST0` and `POST1`, chosen by the last decoded bit (R4, R9, R63, R121). -/
def post : Bool → BitVec postLen
  | false => 0b00#2
  | true => 0b11#2

/-- The byte in whose high 2 bits the source writes `POST1` (R9, R63); no operation reads it. -/
def postByte : Byte := 0xC0#8

/-- `MC_ONE`, the spec's decided value (D5). UNVERIFIED, unsafe: log 8. -/
def mcOne : McOne := .pair01

/-- `RESUME_AT`, the spec's decided value (D4). UNVERIFIED, unsafe: log 9. -/
def resumeAt : ResumeAt := .afterPreamble

/-- `CRC_POLY` in the source's notation (R4, R124). -/
def crcPoly : Byte := 0x31#8

/-- `CRC_POLY_REFLECTED`, the constant the LSB-first datapath XORs (R4, R124).
UNVERIFIED, unsafe: log 10. -/
def crcPolyReflected : Byte := 0x8C#8

/-- `CRC_INIT` (R4). -/
def crcInit : Byte := 0x00#8

/-- The number of payload bytes the checksum covers (R9, R129). -/
@[simp] def crcBytes : Nat := 7

/-- The number of payload bytes (R9, R11). -/
@[simp] abbrev payloadBytes : Nat := 8

/-- The width of the identifier `unit_id` (R9, R136). -/
@[simp] abbrev idBits : Nat := 24

/-- The width of the identifier's container `rec_id` (R9, R20, R66). -/
@[simp] abbrev idContainerBits : Nat := 32

/-- The byte of `unit_id[23:16]` (R64, U11). -/
@[simp] def idHighByte : Nat := 0

/-- The byte of `unit_id[15:8]` (R64, U11). -/
@[simp] def idMiddleByte : Nat := 1

/-- The byte of `unit_id[7:0]` (R64, U11). -/
@[simp] def idLowByte : Nat := 2

/-- The byte of `flags` (R64, R137, U11). -/
@[simp] def flagsByte : Nat := 3

/-- The byte of `maybetemp` and `temperature_C` (R64, R138, R139, U11). -/
@[simp] def maybetempByte : Nat := 4

/-- The byte of `depth` and `binding_countdown`, read twice (R64, R140, R141, U11). -/
@[simp] def depthByte : Nat := 5

/-- The byte that has no field (R64, R69, U11). -/
@[simp] def fieldlessByte : Nat := 6

/-- The byte that holds the checksum (R64, R126, U11). -/
@[simp] def checksumByte : Nat := 7

/-- The byte whose bit 0 is the last decoded bit, "the 8th decoded byte" (R121, U11). -/
@[simp] def lastByte : Nat := 7

/-- Bit 0 of `flags`: binding in progress (R67). -/
@[simp] def bindingBit : Nat := 0

/-- Bit 6 of `flags`: leak or theft alarm (R67); no operation reads it. -/
@[simp] def alarmBit : Nat := 6

/-- The divisor of `temperature_C` (R139). -/
@[simp] def tempDivisor : Nat := 4

/-- The `maybetemp` of the worked example 52 → 13.0 (R9, R139); no operation reads it. -/
def exampleMaybetemp : Byte := 52#8

/-- The `temperature_C` of the worked example 52 → 13.0 (R9, R139); no operation reads it. -/
def exampleTemperature : Rat := 13

/-- `MODEL_ID` (R76, R142). -/
def modelId : String := "Oil-Proteus"

/-- The 11 ASCII bytes of `MODEL_ID` (R76). -/
def modelIdBytes : List Byte :=
  [0x4F#8, 0x69#8, 0x6C#8, 0x2D#8, 0x50#8, 0x72#8, 0x6F#8, 0x74#8, 0x65#8, 0x75#8, 0x73#8]

/-- The short and the long pulse width, about 500 of an unnamed time unit each: front-end metadata, out of scope
(R3 (b), R9, R191); no operation reads it. -/
def pulseWidthUnits : Nat := 500

/-- The inter-frame reset threshold, about 4000 time units: front-end metadata, out of scope (R3 (b), R9, R191); no
operation reads it. -/
def interFrameResetUnits : Nat := 4000

/-- The depth the sensor reports at about rest (R9, R141), informative; no operation reads it. -/
def restingDepth : Nat := 13

/-- What the open parameter `W` has above its least legal value 8 (R4). No value can be proved of it (log 7). -/
opaque extraWidth : Nat

/-- `W`: the width of the position registers and of `count`, any integer at least 8 (R4, D2). -/
def W : Nat := 8 + extraWidth

end Config

/-- The Decoded Payload `P[0]` to `P[7]` (R11). -/
abbrev Payload := Vector Byte Config.payloadBytes

end Sys2Proof
end

