-- ==== Sys2Proof/Syntax.lean ====
section
/-! DEFINITION. The phases of the sequencer, the formats the block recognises, and `Instr`: one constructor
per row of the opcode table (R8: operations, recognised patterns and phase codes stand for instructions). -/

namespace Sys2Proof

/-- The thirteen values of `phase` (R12); codes 13 to 15 name no phase (R71). -/
inductive Phase
  | idle
  | search
  | guard
  | skip
  | mdec
  | lenchk
  | postchk
  | crcchk
  | extract
  | emit
  | resume
  | finish
  | done
  deriving DecidableEq, Repr

/-- The formats of R60, and the host command of R72. -/
inductive Format
  | sync8
  | msym2
  | post2
  | frame64
  | phase4
  | hostcmd
  deriving DecidableEq, Repr

/-- The rows of the opcode table (R70, R60). -/
inductive Instr
  /-- `PREAMBLE`: the pattern `SYNC8` at the scan cursor (R61, R81). -/
  | preamble
  /-- `MS0`: the valid symbol of decoded bit 0 (R62). -/
  | ms0
  /-- `MS1`: the valid symbol of decoded bit 1 (R62). -/
  | ms1
  /-- `MSX0`: the invalid symbol `00` (R62, R68). -/
  | msx0
  /-- `MSX1`: the invalid symbol `11` (R62, R68). -/
  | msx1
  /-- `PA0`: the postamble `00` (R63). -/
  | pa0
  /-- `PA1`: the postamble `11` (R63). -/
  | pa1
  /-- `FRAME`: the 64-bit layout of the Decoded Payload (R64). -/
  | frame (unitId : BitVec Config.idBits) (flags maybetemp depth byte6 checksum : Byte)
  /-- `SEARCH` (R80). -/
  | search
  /-- `GUARD` (R93). -/
  | guard
  /-- `SKIP` (R94). -/
  | skip
  /-- `MDEC` (R110). -/
  | mdec
  /-- `LENCHK` (R115). -/
  | lenchk
  /-- `POSTCHK` (R120). -/
  | postchk
  /-- `CRCCHK` (R126). -/
  | crcchk
  /-- `EXTRACT` (R135). -/
  | extract
  /-- `EMIT` (R150). -/
  | emit
  /-- `RESUME` (R100). -/
  | resume
  /-- `FINISH` (R102). -/
  | finish
  /-- `IDLE`: rest phase, no operation (R12). -/
  | idle
  /-- `DONE`: rest phase, no operation (R12). -/
  | done
  /-- `START` with its operand `NBITS` (R72, R90). -/
  | start (nbits : Nat)
  deriving DecidableEq, Repr

end Sys2Proof
end

