-- ==== Sys2Proof/WellFormed.lean ====
section
/-! DEFINITION. Which instructions are well formed. The one operand that a bit width bounds and whose type
does not already say so is `NBITS` (R24: any value `0 ≤ NBITS < 2^W` is legal). -/

namespace Sys2Proof

/-- Well-formed instructions: `START` carries a `W`-bit operand (R24, R72); every value of the other rows'
operands is legal (R64, R67, R69). -/
def Instr.wf : Instr → Bool
  | .preamble => true
  | .ms0 => true
  | .ms1 => true
  | .msx0 => true
  | .msx1 => true
  | .pa0 => true
  | .pa1 => true
  | .frame _ _ _ _ _ _ => true
  | .search => true
  | .guard => true
  | .skip => true
  | .mdec => true
  | .lenchk => true
  | .postchk => true
  | .crcchk => true
  | .extract => true
  | .emit => true
  | .resume => true
  | .finish => true
  | .idle => true
  | .done => true
  | .start n => decide (n < 2 ^ Config.W)

end Sys2Proof
end

