-- ==== Sys2Proof/Decode.lean ====
section
/-! DEFINITION. Reading the patterns of R60 and the host command of R72, and writing them. A word is read under
a format, because the format follows from where the bits stand (the stream, the payload registers, `phase`),
never from the bits (log 18). In a word the bit that comes first in the stream is the most significant
(R5 (b), R46). -/

namespace Sys2Proof

/-- Why a word is no instruction of a format. -/
inductive DecodeError
  /-- The word has bits above the format's length (R60). -/
  | tooWide
  /-- A `SYNC8` word other than the preamble (R61). -/
  | notPreamble
  /-- The pairs `01` and `10` are never a postamble (R63). -/
  | notPostamble
  /-- `phase` codes 13, 14 and 15 name no phase (R71). -/
  | reservedPhase
  /-- The input `start` is 0: no host command (R72). -/
  | startLow
  deriving DecidableEq, Repr

/-- The 4-bit code of a phase (R12). -/
def Phase.code : Phase → BitVec 4
  | .idle => 0#4
  | .search => 1#4
  | .guard => 2#4
  | .skip => 3#4
  | .mdec => 4#4
  | .lenchk => 5#4
  | .postchk => 6#4
  | .crcchk => 7#4
  | .extract => 8#4
  | .emit => 9#4
  | .resume => 10#4
  | .finish => 11#4
  | .done => 12#4

/-- The phase a code names; 13 to 15 name none (R12, R71). -/
def phaseOfCode (w : BitVec 4) : Option Phase :=
  match w.toNat with
  | 0 => some .idle
  | 1 => some .search
  | 2 => some .guard
  | 3 => some .skip
  | 4 => some .mdec
  | 5 => some .lenchk
  | 6 => some .postchk
  | 7 => some .crcchk
  | 8 => some .extract
  | 9 => some .emit
  | 10 => some .resume
  | 11 => some .finish
  | 12 => some .done
  | _ => none

/-- The operation performed in a phase; the rest phases perform none (R12, R70). -/
def phaseInstr : Phase → Instr
  | .idle => .idle
  | .search => .search
  | .guard => .guard
  | .skip => .skip
  | .mdec => .mdec
  | .lenchk => .lenchk
  | .postchk => .postchk
  | .crcchk => .crcchk
  | .extract => .extract
  | .emit => .emit
  | .resume => .resume
  | .finish => .finish
  | .done => .done

/-- `MDecBit(a, b)` of a valid pair (R111): the second raw bit under `MC_ONE = 01`, the first under `10`. -/
def mdecBit : McOne → Bool → Bool → Bool
  | .pair01, _, b => b
  | .pair10, a, _ => a

/-- The decoded bit of a raw pair, or nothing for the invalid symbols `00` and `11` (R62, R111, R113). -/
def pairBit (mc : McOne) (pair : BitVec Config.symLen) : Option Bool :=
  let a := pair.getLsbD 1
  let b := pair.getLsbD 0
  if a = b then none else some (mdecBit mc a b)

/-- The place of bit 0 of payload byte `n` in the 64-bit value `{P[0], …, P[7]}` (R64). -/
@[simp] def byteShift (n : Nat) : Nat := 8 * (Config.payloadBytes - 1 - n)

/-- The length in bits of a word of a format (R60); the host command is `start` and the `W` bits of `NBITS` (R72). -/
def formatWidth : Format → Nat
  | .sync8 => Config.preLen
  | .msym2 => Config.symLen
  | .post2 => Config.postLen
  | .frame64 => Config.decLen
  | .phase4 => 4
  | .hostcmd => 1 + Config.W

/-- Format `SYNC8` (R61): all eight bits are compared. -/
def decodeSync8 (w : BitVec Config.preLen) : Except DecodeError Instr :=
  if w = Config.preamble then .ok .preamble else .error .notPreamble

/-- Format `MSYM2` (R62): four symbols, none reserved. -/
def decodeMsym2 (mc : McOne) (pair : BitVec Config.symLen) : Instr :=
  match pairBit mc pair with
  | some false => .ms0
  | some true => .ms1
  | none => if pair.getLsbD 0 then .msx1 else .msx0

/-- Format `POST2` (R63). -/
def decodePost2 (pair : BitVec Config.postLen) : Except DecodeError Instr :=
  if pair = Config.post false then .ok .pa0
  else if pair = Config.post true then .ok .pa1
  else .error .notPostamble

/-- Format `FRAME64` (R64): byte 0 is the most significant byte of the 64-bit value. -/
def decodeFrame64 (w : BitVec Config.decLen) : Instr :=
  .frame (w.extractLsb' (byteShift Config.idLowByte) Config.idBits) (w.extractLsb' (byteShift Config.flagsByte) 8)
    (w.extractLsb' (byteShift Config.maybetempByte) 8) (w.extractLsb' (byteShift Config.depthByte) 8)
    (w.extractLsb' (byteShift Config.fieldlessByte) 8) (w.extractLsb' (byteShift Config.checksumByte) 8)

/-- Format `PHASE4` (R70, R71). -/
def decodePhase4 (w : BitVec 4) : Except DecodeError Instr :=
  match phaseOfCode w with
  | some p => .ok (phaseInstr p)
  | none => .error .reservedPhase

/-- The host command (R72): `start` at 1 with the operand `NBITS`. -/
def decodeHostcmd (start : Bool) (nbits : Nat) : Except DecodeError Instr :=
  if start then .ok (.start nbits) else .error .startLow

/-- The instruction a word is under a format, for either value of `MC_ONE`; a host command's word has `start`
as its bit 0 and `NBITS` above it (DESIGN CHOICE, safe: log 19). -/
def decode (mc : McOne) (f : Format) (w : Nat) : Except DecodeError Instr :=
  match f with
  | .sync8 => if w < 2 ^ formatWidth .sync8 then decodeSync8 (BitVec.ofNat Config.preLen w) else .error .tooWide
  | .msym2 => if w < 2 ^ formatWidth .msym2 then .ok (decodeMsym2 mc (BitVec.ofNat Config.symLen w)) else .error .tooWide
  | .post2 => if w < 2 ^ formatWidth .post2 then decodePost2 (BitVec.ofNat Config.postLen w) else .error .tooWide
  | .frame64 =>
    if w < 2 ^ formatWidth .frame64 then .ok (decodeFrame64 (BitVec.ofNat Config.decLen w)) else .error .tooWide
  | .phase4 => if w < 2 ^ formatWidth .phase4 then decodePhase4 (BitVec.ofNat 4 w) else .error .tooWide
  | .hostcmd => decodeHostcmd (decide (w % 2 = 1)) (w / 2)

/-- The raw pair, as a word, of a valid symbol of decoded bit `v` (R62). -/
def pairOfBit (mc : McOne) (v : Bool) : Nat :=
  match mc, v with
  | .pair01, false => 0b10
  | .pair01, true => 0b01
  | .pair10, false => 0b01
  | .pair10, true => 0b10

/-- The format of an instruction and its word there (R61 to R64, R70, R72). -/
def encode (mc : McOne) : Instr → Format × Nat
  | .preamble => (.sync8, Config.preamble.toNat)
  | .ms0 => (.msym2, pairOfBit mc false)
  | .ms1 => (.msym2, pairOfBit mc true)
  | .msx0 => (.msym2, 0b00)
  | .msx1 => (.msym2, 0b11)
  | .pa0 => (.post2, (Config.post false).toNat)
  | .pa1 => (.post2, (Config.post true).toNat)
  | .frame u f t d x c =>
    (.frame64, u.toNat * 2 ^ byteShift Config.idLowByte + f.toNat * 2 ^ byteShift Config.flagsByte
      + t.toNat * 2 ^ byteShift Config.maybetempByte + d.toNat * 2 ^ byteShift Config.depthByte
      + x.toNat * 2 ^ byteShift Config.fieldlessByte + c.toNat * 2 ^ byteShift Config.checksumByte)
  | .search => (.phase4, 1)
  | .guard => (.phase4, 2)
  | .skip => (.phase4, 3)
  | .mdec => (.phase4, 4)
  | .lenchk => (.phase4, 5)
  | .postchk => (.phase4, 6)
  | .crcchk => (.phase4, 7)
  | .extract => (.phase4, 8)
  | .emit => (.phase4, 9)
  | .resume => (.phase4, 10)
  | .finish => (.phase4, 11)
  | .idle => (.phase4, 0)
  | .done => (.phase4, 12)
  | .start n => (.hostcmd, 2 * n + 1)

/-- The format in which a bare table word of `nbits` bits is read. Eight bits name `SYNC8`, `PHASE4` and, rounded
up to a byte, the shorter formats: the preamble's byte is `SYNC8`, every other byte is `PHASE4`
(DESIGN CHOICE, safe: log 18). -/
def tableFormat (nbits w : Nat) : Option Format :=
  if nbits = 1 then some .hostcmd
  else if nbits = formatWidth .msym2 then some .msym2
  else if nbits = formatWidth .phase4 then some .phase4
  else if nbits = formatWidth .sync8 then
    if w = Config.preamble.toNat then some .sync8 else some .phase4
  else if nbits = formatWidth .frame64 then some .frame64
  else none

/-- The instruction the decoder reads from a table word (log 18). -/
def decodeTableWord (nbits w : Nat) : Option Instr :=
  match tableFormat nbits w with
  | none => none
  | some f =>
    match decode Config.mcOne f w with
    | .ok i => some i
    | .error _ => none

end Sys2Proof
end

