-- ==== Sys2Proof/Machine/State.lean ====
section
/-! DEFINITION. The state of one core (R10), the buffer it reads, the ports the host drives and the records the
sink has received; the reasons a step can stop; the machine right after reset (R33, R180). -/

namespace Sys2Proof.Machine

/-- Why a run ends in a fault. -/
inductive Fault
  /-- Raised by `SEARCH`, `MDEC` and `POSTCHK` when they read a bit at or above the true length of row 0, which
  only a host that gave an `NBITS` above that length can bring about (R184, U8). Safe: the spec gives such a run
  no meaning (log 4). -/
  | bitOutsideRow
  deriving DecidableEq, Repr

/-- Why a step gives no meaning. -/
inductive Refusal
  /-- Raised by `exec` alone, for an instruction that has no meaning yet. Safe: the run stops. -/
  | notModelled (mnemonic : String)
  deriving DecidableEq, Repr

/-- Row 0 of the Raw Bit Buffer, packed by R46, as (byte address, byte) pairs. -/
abbrev Memory := List Host.Cell

/-- What a byte that is not listed reads as. DESIGN CHOICE, unsafe in form: a representation of the zero
bytes of the row, since `rowLen` says which bits exist (log 5). -/
def Memory.unlisted : Byte := 0x00#8

/-- The canonical form: addresses strictly rising, and no entry equal to what an unlisted address reads as. -/
abbrev Memory.wf (m : Memory) : Prop :=
  m.Pairwise (fun a b => a.1 < b.1) ∧ ∀ c ∈ m, c.2 ≠ Memory.unlisted

/-- The values of the input ports during one step: `rst` (R29), `start` (R25), `NBITS` (R24). -/
structure PortIn where
  rst : Bool
  start : Bool
  nbits : Nat
  deriving DecidableEq, Repr

/-- The ports while the host drives nothing. -/
def PortIn.low : PortIn := ⟨false, false, 0⟩

/-- The record output register (R20). -/
structure RecordReg where
  id : BitVec Config.idContainerBits
  flags : Byte
  maybetemp : Byte
  /-- `rec_temp_q2`: unsigned fixed point with two fraction bits (R20, R139). -/
  tempQ2 : Byte
  bindingCountdown : Byte
  depth : Byte
  deriving DecidableEq, Repr

/-- The record output register cleared (R33). -/
def RecordReg.zero : RecordReg := ⟨0#Config.idContainerBits, 0#8, 0#8, 0#8, 0#8, 0#8⟩

/-- One record as the sink receives it: exactly these seven fields (R75, R154). -/
structure FrameRecord where
  model : String
  id : Nat
  flags : Nat
  maybetemp : Nat
  /-- The exact quotient `maybetemp / 4` (R139, log 17). -/
  temperatureC : Rat
  bindingCountdown : Nat
  depth : Nat
  deriving DecidableEq, Repr

/-- The whole state. -/
structure State where
  /-- The sequencer register (R12). -/
  phase : Phase
  /-- Latched length of row 0 (R23). -/
  nbits : Nat
  /-- The scan cursor (R13). -/
  cursor : Nat
  /-- The position of the last preamble match (R14). -/
  mpos : Nat
  /-- The result of the last `SEARCH` (R15). -/
  found : Bool
  /-- The raw-bit cursor of the Manchester decoder (R16). -/
  dcur : Nat
  /-- The count of decoded bits of the current candidate, 0 to 64 (R17). -/
  ndec : Nat
  /-- The Decoded Payload `P[0]` to `P[7]` (R11). -/
  P : Payload
  /-- The checksum computed by the last `CRCCHK` (R18). -/
  crc : Byte
  /-- Records emitted in this invocation (R19). -/
  count : Nat
  /-- The record output register (R20). -/
  record : RecordReg
  /-- The bits of row 0 (R40, R46); the model's own field (log 3). -/
  mem : Memory
  /-- How many bits row 0 has (R184); the model's own field (log 3). -/
  rowLen : Nat
  /-- What the host drives on the input ports, one entry for each step to come (log 6). -/
  inputs : List PortIn
  /-- The records the sink has received, oldest first (R150); the model's own field (log 14). -/
  sink : List FrameRecord
  deriving DecidableEq, Repr

/-- The machine after reset: every register as R33 and R180 say; an empty row, no input and no record yet
(DESIGN CHOICE, unsafe: log 16). -/
def State.reset : State where
  phase := .idle
  nbits := 0
  cursor := 0
  mpos := 0
  found := false
  dcur := 0
  ndec := 0
  P := Vector.replicate Config.payloadBytes 0#8
  crc := 0#8
  count := 0
  record := RecordReg.zero
  mem := []
  rowLen := 0
  inputs := []
  sink := []

end Sys2Proof.Machine
end

