-- ==== Sys2Proof/Machine/Ops.lean ====
section
/-! DEFINITION. The named operations over the buffer, the ports and the registers: bit reads (R5, R6, R44, R46),
soft rejection and terminal condition (R163, R164) and the return to scanning (R100, R170), `START` and `rst`
as re-initialisation (R33, R90, R180), the hand-over of a record (R150), and the outputs (R21, R22, R26, R27). -/

namespace Sys2Proof.Machine

/-- The outcome of a step of this machine. -/
abbrev Result := Host.Outcome State Fault Refusal

/-- A meaning whose only way to stop is a read outside the row (log 4). -/
def orFault : Option State → Result
  | some t => .next t
  | none => .fault .bitOutsideRow

/-! ### The buffer -/

/-- The byte at a byte address. -/
def Memory.read : Memory → Nat → Byte
  | [], _ => Memory.unlisted
  | c :: m, a => if c.1 = a then c.2 else Memory.read m a

/-- A byte address given a value, the canonical form kept. No operation of the core uses it (R41): it is how the
front end's product is laid down (R183). -/
def Memory.write : Memory → Nat → Byte → Memory
  | [], a, v => if v = Memory.unlisted then [] else [(a, v)]
  | c :: m, a, v =>
    if a < c.1 then (if v = Memory.unlisted then c :: m else (a, v) :: c :: m)
    else if a = c.1 then (if v = Memory.unlisted then m else (a, v) :: m)
    else c :: Memory.write m a v

/-- Bit `i` of the buffer is bit `7 - (i mod 8)` of byte `i div 8` (R46). -/
def Memory.bit (m : Memory) (i : Nat) : Bool :=
  (Memory.read m (i / 8)).getLsbD (7 - i % 8)

/-- The byte `v` with bit `7 - j` set to `b`. -/
def byteWithBit (v : Byte) (j : Nat) (b : Bool) : Byte :=
  if b then v ||| (0x80#8 >>> j) else v &&& ~~~(0x80#8 >>> j)

/-- One bit of the buffer given a value, laid down by the front end (R46, R183). -/
def Memory.setBit (m : Memory) (i : Nat) (b : Bool) : Memory :=
  Memory.write m (i / 8) (byteWithBit (Memory.read m (i / 8)) (i % 8) b)

/-- `Bit(i)` (R5, R6): the raw bit at address `i`, for the bits the row has. -/
def State.readBit (s : State) (i : Nat) : Option Bool :=
  if i < s.rowLen then some (Memory.bit s.mem i) else none

/-- `MemRead(addr, n)` (R6, R44): `n` bit reads, `Bit(addr)` most significant; nothing where a bit does not exist. -/
def State.memRead (s : State) (addr : Nat) : (n : Nat) → Option (BitVec n)
  | 0 => some 0#0
  | n + 1 =>
    match State.memRead s addr n, s.readBit (addr + n) with
    | some hi, some b => some (hi.concat b)
    | _, _ => none

/-! ### Control transfer -/

/-- `pc <- target` (R6): the write of `phase`. -/
def State.goto (s : State) (p : Phase) : State := { s with phase := p }

/-- The causes of a soft rejection (R161). -/
inductive RejectCause
  | len
  | post
  | crc
  deriving DecidableEq, Repr

/-- The causes of a terminal condition (R162). -/
inductive TerminalCause
  | notFound
  | tooShort
  deriving DecidableEq, Repr

/-- `raise Reject(cause)` (R163): does exactly one thing, and the cause is recorded nowhere (R165). -/
def State.raiseReject (s : State) (_cause : RejectCause) : State := s.goto .resume

/-- `raise Terminal(cause)` (R164): does exactly one thing, and the cause is recorded nowhere (R165). -/
def State.raiseTerminal (s : State) (_cause : TerminalCause) : State := s.goto .finish

/-- Where the next search starts after a candidate, for either value of `RESUME_AT` (R100, R101). -/
def resumeCursor (r : ResumeAt) (cursor dcur : Nat) : Nat :=
  match r with
  | .afterPreamble => cursor
  | .afterDecode => dcur

/-- The return from a candidate to scanning (R100, R101, R170): nothing is restored. -/
def State.returnToScan (s : State) (r : ResumeAt) : State :=
  { s with cursor := resumeCursor r s.cursor s.dcur, phase := .search }

/-! ### Reset and start -/

/-- Every register of the core at zero, in phase `p` with row length `n` (R33). -/
def State.cleared (s : State) (p : Phase) (n : Nat) : State :=
  { s with
    phase := p, nbits := n, cursor := 0, mpos := 0, found := false, dcur := 0, ndec := 0,
    P := Vector.replicate Config.payloadBytes 0#8, crc := 0#8, count := 0, record := RecordReg.zero }

/-- `rst` (R180, R192): R33's column "after `rst`"; the buffer, the host and the sink are not the core's state. -/
def State.hardReset (s : State) : State := s.cleared .idle 0

/-- `START` honoured (R90): R33's column "after `START`". -/
def State.startInvocation (s : State) (n : Nat) : State := s.cleared .search n

/-- The rest phases accept `START` (R12). -/
def Phase.isRest : Phase → Bool
  | .idle => true
  | .search => false
  | .guard => false
  | .skip => false
  | .mdec => false
  | .lenchk => false
  | .postchk => false
  | .crcchk => false
  | .extract => false
  | .emit => false
  | .resume => false
  | .finish => false
  | .done => true

/-! ### Ports -/

/-- What the input ports carry during the coming step (log 6). -/
def State.port (s : State) : PortIn := s.inputs.headD PortIn.low

/-- The ports sampled: the host's next values stand at the ports from now on (log 6). -/
def State.popPort (s : State) : State := { s with inputs := s.inputs.tail }

/-- `busy` (R22, R26): 1 exactly in the working phases. -/
def State.busy (s : State) : Bool := !Phase.isRest s.phase

/-- `done` (R22, R26): 1 exactly in `DONE`. -/
def State.done (s : State) : Bool := decide (s.phase = .done)

/-- `rec_valid` (R21): 1 exactly during an `EMIT` step; `rst` takes the step's place (R180, log 15). -/
def State.recValid (s : State) : Bool := decide (s.phase = .emit) && !s.port.rst

/-- The result the host may rely on: `count`, only while `done = 1` (R27, R188). -/
def State.result (s : State) : Option Nat := if s.done then some s.count else none

/-! ### The record -/

/-- The record as the sink receives it from the record register (R150, R154). -/
def RecordReg.toSink (r : RecordReg) : FrameRecord where
  model := Config.modelId
  id := r.id.toNat
  flags := r.flags.toNat
  maybetemp := r.maybetemp.toNat
  temperatureC := (r.tempQ2.toNat : Rat) / (Config.tempDivisor : Rat)
  bindingCountdown := r.bindingCountdown.toNat
  depth := r.depth.toNat

/-- `emit(rec)` with the count (R150, R151): the sink always accepts (R152, log 14). -/
def State.emitRecord (s : State) : State :=
  { s with sink := s.sink ++ [s.record.toSink], count := s.count + 1 }

end Sys2Proof.Machine
end

