-- ==== Sys2Proof/Machine/Operands.lean ====
section
/-! DEFINITION. The operand forms: the payload registers bit by bit and byte by byte (R47, R112), the symbols as
the decoder consumes them (R110, R113, R114, R117), and the assembly of the record's fields (R66, R135 to R145). -/

namespace Sys2Proof.Machine

/-- Payload register `P[i]` (R11). -/
def pbyte (P : Payload) (i : Nat) : Byte := P[i]?.getD 0#8

/-- Decoded bit `k` is bit `7 - (k mod 8)` of `P[k div 8]` (R5 (d), R47, R112). -/
def pbit (P : Payload) (k : Nat) : Bool := (pbyte P (k / 8)).getLsbD (7 - k % 8)

/-- `P[k div 8] <- P[k div 8] | (b << (7 - (k mod 8)))` (R110). -/
def porBit (P : Payload) (k : Nat) (b : Bool) : Payload :=
  P.setIfInBounds (k / 8) (pbyte P (k / 8) ||| ((BitVec.ofBool b).setWidth 8 <<< (7 - k % 8)))

/-- The scratch cleared (R94, R185). -/
def pzero : Payload := Vector.replicate Config.payloadBytes 0#8

/-- The 64-bit value `{P[0], …, P[7]}` (R64). -/
def pword (P : Payload) : BitVec Config.decLen :=
  pbyte P 0 ++ pbyte P 1 ++ pbyte P 2 ++ pbyte P 3 ++ pbyte P 4 ++ pbyte P 5 ++ pbyte P 6 ++ pbyte P 7

/-- The payload of a 64-bit value (R64). -/
def payloadOfWord (w : BitVec Config.decLen) : Payload :=
  Vector.ofFn fun i => w.extractLsb' (byteShift i.val) 8

/-- The bytes the checksum covers: `P[0]` to `P[6]`, in that order (R129). -/
def pdata (P : Payload) : List Byte := P.toList.take Config.crcBytes

/-- `SKIP`'s fresh scratch (R94): both cursors past the preamble, no decoded bit. -/
def State.freshCandidate (s : State) : State :=
  { s with cursor := s.mpos + Config.preLen, dcur := s.mpos + Config.preLen, ndec := 0, P := pzero }

/-- A valid symbol of decoded bit `b` consumed (R110's loop body). -/
def State.takeBit (s : State) (b : Bool) : State :=
  { s with P := porBit s.P s.ndec b, ndec := s.ndec + 1, dcur := s.dcur + Config.symLen }

/-- An invalid symbol consumed: the pair counts as consumed, no bit is decoded (R113, R114, log 11). -/
def State.takeInvalid (s : State) : State := { s with dcur := s.dcur + Config.symLen }

/-- One step of the per-pair form on a symbol (R117): a valid symbol is decoded and decoding goes on until 64 bits
stand, an invalid one ends it. With 64 bits decoded, or no pair left in the row, decoding ends with nothing consumed
(R110's `while k < 64`; R116; log 12). -/
def State.symbolStep (s : State) (v : Option Bool) : State :=
  if s.ndec < Config.decLen ∧ s.dcur + Config.symLen ≤ s.nbits then
    match v with
    | some b => (s.takeBit b).goto (if s.ndec + 1 < Config.decLen then .mdec else .lenchk)
    | none => s.takeInvalid.goto .lenchk
  else s.goto .lenchk

/-- `binding_countdown` (R140): byte 5 when `flags` bit 0 is set, zero otherwise. -/
def bindingCountdown (flags byte5 : Byte) : Byte :=
  if flags.getLsbD Config.bindingBit then byte5 else 0x00#8

/-- The record output register built from a payload's fields (R135 to R141): `unit_id` zero-extended to its
32-bit container (R66), byte 5 read twice (R140, R141). -/
def recordOf (unitId : BitVec Config.idBits) (flags maybetemp byte5 : Byte) : RecordReg where
  id := unitId.setWidth Config.idContainerBits
  flags := flags
  maybetemp := maybetemp
  tempQ2 := maybetemp
  bindingCountdown := bindingCountdown flags byte5
  depth := byte5

/-- `Extract(P)` into the record output register (R135): bytes 6 and 7 are not read (R144). -/
def extractRecord (P : Payload) : RecordReg :=
  recordOf (pbyte P Config.idHighByte ++ pbyte P Config.idMiddleByte ++ pbyte P Config.idLowByte)
    (pbyte P Config.flagsByte) (pbyte P Config.maybetempByte) (pbyte P Config.depthByte)

/-- The IEEE 754 binary64 value of `m / 4` (R145): the sink's rendering, used by no operation. -/
def temperatureBinary64 (m : Byte) : BitVec 64 :=
  if m = 0#8 then 0#64
  else
    let e := Nat.log2 m.toNat
    BitVec.ofNat 64 ((1023 + e - 2) * 2 ^ 52 + (m.toNat * 2 ^ (52 - e)) % 2 ^ 52)

end Sys2Proof.Machine
end

