-- ==== Sys2Proof/Machine/Flags.lean ====
section
/-! DEFINITION. The tests the operations make. The block stores one predicate, `found` (R15); the others are
evaluated and consumed inside `GUARD`, `LENCHK`, `POSTCHK` and `CRCCHK`. The checksum function is here (R124). -/

namespace Sys2Proof.Machine

/-! ### SEARCH -/

/-- `Match8(p)` (R81): a full window fits and equals the preamble; nothing where a bit of the window is outside
the row (log 4). -/
def State.match8 (s : State) (p : Nat) : Option Bool :=
  if p + Config.preLen ≤ s.nbits then
    match s.memRead p Config.preLen with
    | some w => some (decide (w = Config.preamble))
    | none => none
  else some false

/-- What a search answers. The sentinel is a constructor, never a position (R82). -/
inductive SearchResult
  | found (p : Nat)
  | notFound
  | outside
  deriving DecidableEq, Repr

/-- The first match among the `n` windows from `p` on. -/
def State.searchFrom (s : State) : Nat → Nat → SearchResult
  | 0, _ => .notFound
  | n + 1, p =>
    match s.match8 p with
    | none => .outside
    | some true => .found p
    | some false => State.searchFrom s n (p + 1)

/-- `Search(c)` (R80): the least `p ≥ c` with `Match8(p)`. -/
def State.search (s : State) (c : Nat) : SearchResult := s.searchFrom (s.nbits - c) c

/-! ### GUARD and LENCHK -/

/-- The remaining-length test (R93), on exact sums (R104). -/
def State.guardOk (s : State) : Bool := decide (s.mpos + Config.guardLen ≤ s.nbits)

/-- The length test (R115). -/
def State.lengthOk (s : State) : Bool := decide (s.ndec = Config.decLen)

/-! ### POSTCHK -/

/-- The last decoded bit, `P[7][0]` (R121). -/
def State.lastBit (s : State) : Bool := (pbyte s.P Config.lastByte).getLsbD 0

/-- `PostOK(dcur, P[7][0])` (R120, R121): two missing bits fail the check and are not read (R122, log 13). -/
def State.postOk (s : State) : Option Bool :=
  if s.dcur + Config.postLen ≤ s.nbits then
    match s.memRead s.dcur Config.postLen with
    | some pair => some (decide (pair = Config.post s.lastBit))
    | none => none
  else some false

/-- The test on a postamble `Post(l)` already recognised at `dcur` (R63, R121, R122). -/
def State.postIs (s : State) (l : Bool) : Bool :=
  decide (s.dcur + Config.postLen ≤ s.nbits) && decide (s.lastBit = l)

/-! ### CRCCHK -/

/-- One shift of `Crc8`'s inner loop (R124). -/
def crcShift (r : Byte) : Byte :=
  if r.getLsbD 0 then (r >>> 1) ^^^ Config.crcPolyReflected else r >>> 1

/-- `n` shifts. -/
def crcShifts : Nat → Byte → Byte
  | 0, r => r
  | n + 1, r => crcShifts n (crcShift r)

/-- One message byte taken in (R124). -/
def crcByte (r m : Byte) : Byte := crcShifts 8 (r ^^^ m)

/-- `Crc8` of a byte sequence (R124); its reading of the source is decided in D7 (log 10). -/
def crc8 (m : List Byte) : Byte := m.foldl crcByte Config.crcInit

/-- The checksum of the payload's data bytes (R126, R129). -/
def payloadCrc (P : Payload) : Byte := crc8 (pdata P)

/-- The checksum test (R126). -/
def crcOk (P : Payload) : Bool := decide (payloadCrc P = pbyte P Config.checksumByte)

end Sys2Proof.Machine
end

