-- ==== Sys2Proof/Machine/Detector.lean ====
section
/-! DEFINITION. The preamble locator: `SEARCH` (`40_preamble_detector.md`) and the pattern `PREAMBLE` it recognises. -/

namespace Sys2Proof.Machine

/-- An occurrence at `p` taken (R80). -/
def State.takeMatch (s : State) (p : Nat) : State :=
  { s with found := true, mpos := p, phase := .guard }

/-- No occurrence (R80, R92): `mpos` is unchanged. -/
def State.takeNoMatch (s : State) : State :=
  State.raiseTerminal { s with found := false } .notFound

/-- `SEARCH` (R80). -/
def execSearch (s : State) : Result :=
  match s.search s.cursor with
  | .found p => .next (s.takeMatch p)
  | .notFound => .next s.takeNoMatch
  | .outside => .fault .bitOutsideRow

/-- `PREAMBLE`: what `SEARCH` does on a window at the scan cursor that shows the preamble (R81, R85 (c)); a window
that extends beyond the last bit never matches (R81, R85 (a)). DESIGN CHOICE, safe: log 1. -/
def execPreamble (s : State) : Result :=
  .next (if s.cursor + Config.preLen ≤ s.nbits then s.takeMatch s.cursor else s.takeNoMatch)

end Sys2Proof.Machine
end

