-- ==== Sys2Proof/Machine/Loop.lean ====
section
/-! DEFINITION. The frame-discovery loop: `START`, `GUARD`, `SKIP`, `RESUME`, `FINISH` and the rest phases
(`41_discovery_loop.md`, R12). -/

namespace Sys2Proof.Machine

/-- `START` (R90): re-initialises everything in a rest phase, is ignored while busy (R25, R187). -/
def execStart (nbits : Nat) (s : State) : Result :=
  if Phase.isRest s.phase then .next (s.startInvocation nbits) else .next s

/-- `GUARD` (R93). -/
def execGuard (s : State) : Result :=
  .next (if s.guardOk then s.goto .skip else s.raiseTerminal .tooShort)

/-- `SKIP` (R94). -/
def execSkip (s : State) : Result := .next (s.freshCandidate.goto .mdec)

/-- `RESUME` (R100, R101). -/
def execResume (s : State) : Result := .next (s.returnToScan Config.resumeAt)

/-- `FINISH` (R102). -/
def execFinish (s : State) : Result := .next (s.goto .done)

/-- `IDLE` (R12): a rest phase performs no operation. -/
def execIdle (s : State) : Result := .next s

/-- `DONE` (R12): a rest phase performs no operation; `count` stays. -/
def execDone (s : State) : Result := .next s

end Sys2Proof.Machine
end

