-- ==== Sys2Proof/Machine/Manchester.lean ====
section
/-! DEFINITION. The Manchester decoder: `MDEC`, `LENCHK` and the symbols (`42_manchester_decoder.md`). -/

namespace Sys2Proof.Machine

/-- R110's loop, at most `n` pairs; nothing where a bit is outside the row (log 4). A row that ends within the body
ends the decoding without `dcur` advancing (R116, log 12). -/
def mdecLoop : Nat → State → Option State
  | 0, s => some s
  | n + 1, s =>
    if s.dcur + Config.symLen ≤ s.nbits then
      match s.memRead s.dcur Config.symLen with
      | none => none
      | some pair =>
        match pairBit Config.mcOne pair with
        | some b => mdecLoop n (s.takeBit b)
        | none => some s.takeInvalid
    else some s

/-- `MDecode` from `dcur` (R110): the scratch is cleared first. -/
def mdecode (s : State) : Option State :=
  mdecLoop Config.decLen { s with P := pzero, ndec := 0 }

/-- `MDEC` (R110). -/
def execMdec (s : State) : Result :=
  orFault ((mdecode s).map fun t => t.goto .lenchk)

/-- `LENCHK` (R115). -/
def execLenchk (s : State) : Result :=
  .next (if s.lengthOk then s.goto .postchk else s.raiseReject .len)

/-- `MS0`: decoded bit 0 (R62, R117). -/
def execMs0 (s : State) : Result := .next (s.symbolStep (some false))

/-- `MS1`: decoded bit 1 (R62, R117). -/
def execMs1 (s : State) : Result := .next (s.symbolStep (some true))

/-- `MSX0`: the invalid symbol `00` (R113, R114). -/
def execMsx0 (s : State) : Result := .next (s.symbolStep none)

/-- `MSX1`: the invalid symbol `11` (R113, R114). -/
def execMsx1 (s : State) : Result := .next (s.symbolStep none)

end Sys2Proof.Machine
end

