-- ==== Sys2Proof/Machine/Parser.lean ====
section
/-! DEFINITION. The field extractor and the record emitter: `EXTRACT`, `EMIT` and the layout `FRAME`
(`44_frame_parser.md`, `45_record_emitter.md`). -/

namespace Sys2Proof.Machine

/-- The record register written as a whole, and on to `EMIT` (R20, R135). -/
def State.latchRecord (s : State) (r : RecordReg) : State :=
  { s with record := r, phase := .emit }

/-- `EXTRACT` (R135). -/
def execExtract (s : State) : Result := .next (s.latchRecord (extractRecord s.P))

/-- `FRAME`: what `EXTRACT` does on a payload with these fields (R64, R135); byte 6 and the checksum do not reach
the record (R69, R144). DESIGN CHOICE, safe: log 1. -/
def execFrame (unitId : BitVec Config.idBits) (flags maybetemp depth _byte6 _checksum : Byte) (s : State) : Result :=
  .next (s.latchRecord (recordOf unitId flags maybetemp depth))

/-- `EMIT` (R150). -/
def execEmit (s : State) : Result := .next (s.emitRecord.goto .resume)

end Sys2Proof.Machine
end

