-- ==== Sys2Proof/Machine/Validator.lean ====
section
/-! DEFINITION. The frame validator: `POSTCHK`, `CRCCHK` and the postambles (`43_crc8_validator.md`). -/

namespace Sys2Proof.Machine

/-- The way on from the postamble check (R120). -/
def State.afterPost (s : State) (ok : Bool) : State :=
  if ok then s.goto .crcchk else s.raiseReject .post

/-- `POSTCHK` (R120). -/
def execPostchk (s : State) : Result := orFault (s.postOk.map fun ok => s.afterPost ok)

/-- `PA0`: the pair `00` at `dcur` (R63, R121). -/
def execPa0 (s : State) : Result := .next (s.afterPost (s.postIs false))

/-- `PA1`: the pair `11` at `dcur` (R63, R121). -/
def execPa1 (s : State) : Result := .next (s.afterPost (s.postIs true))

/-- `CRCCHK` (R126). -/
def execCrcchk (s : State) : Result :=
  let t := { s with crc := payloadCrc s.P }
  .next (if crcOk s.P then t.goto .extract else t.raiseReject .crc)

end Sys2Proof.Machine
end

