-- ==== Sys2Proof/Machine/Dispatch.lean ====
section
/-! DEFINITION. The meaning of every instruction, one arm a constructor. -/

namespace Sys2Proof.Machine

def exec (i : Instr) (s : State) : Host.Outcome State Fault Refusal :=
  match i with
  | .preamble => Sys2Proof.Machine.execPreamble s
  | .ms0 => Sys2Proof.Machine.execMs0 s
  | .ms1 => Sys2Proof.Machine.execMs1 s
  | .msx0 => Sys2Proof.Machine.execMsx0 s
  | .msx1 => Sys2Proof.Machine.execMsx1 s
  | .pa0 => Sys2Proof.Machine.execPa0 s
  | .pa1 => Sys2Proof.Machine.execPa1 s
  | .frame u f t d x c => Sys2Proof.Machine.execFrame u f t d x c s
  | .search => Sys2Proof.Machine.execSearch s
  | .guard => Sys2Proof.Machine.execGuard s
  | .skip => Sys2Proof.Machine.execSkip s
  | .mdec => Sys2Proof.Machine.execMdec s
  | .lenchk => Sys2Proof.Machine.execLenchk s
  | .postchk => Sys2Proof.Machine.execPostchk s
  | .crcchk => Sys2Proof.Machine.execCrcchk s
  | .extract => Sys2Proof.Machine.execExtract s
  | .emit => Sys2Proof.Machine.execEmit s
  | .resume => Sys2Proof.Machine.execResume s
  | .finish => Sys2Proof.Machine.execFinish s
  | .idle => Sys2Proof.Machine.execIdle s
  | .done => Sys2Proof.Machine.execDone s
  | .start nbits => Sys2Proof.Machine.execStart nbits s

end Sys2Proof.Machine
end

