-- ==== Sys2Proof/Machine/Fetch.lean ====
section
/-! DEFINITION. Which instruction the coming step runs (R12, R70, R72), and laying a word where it is fetched. -/

namespace Sys2Proof.Machine

/-- The next instruction: the host command where a rest phase sees `start` (R25, R72), else the operation of
`phase` (R12). -/
def fetch (s : State) : Instr :=
  if Phase.isRest s.phase && s.port.start then .start s.port.nbits else phaseInstr s.phase

/-- Raw bits laid down from address `a` on, the row and the latched length made long enough to hold them. -/
def placeBits (s : State) (a : Nat) (bits : List Bool) : State :=
  { s with
    mem := bits.zipIdx.foldl (fun m c => Memory.setBit m (a + c.2) c.1) s.mem
    rowLen := max s.rowLen (a + bits.length)
    nbits := max s.nbits (a + bits.length) }

/-- The host's ports during the coming step set to `p`. -/
def State.withPort (s : State) (p : PortIn) : State := { s with inputs := p :: s.inputs.tail }

/-- The row cut to end right after a symbol at `dcur`, so that `MDEC` meets that one symbol. -/
def placeSymbol (s : State) (w : Nat) : State :=
  let t := placeBits s s.dcur [(BitVec.ofNat Config.symLen w).getLsbD 1, (BitVec.ofNat Config.symLen w).getLsbD 0]
  { t with nbits := s.dcur + Config.symLen, phase := .mdec }

/-- A table word laid where the format it is read in is fetched (log 18, log 26): a phase code in `phase`, the
preamble at the scan cursor, a symbol at `dcur`, a payload in `P`, the host command at the ports. -/
def placeWord (s : State) (nbits w : Nat) : State :=
  let t := s.withPort { s.port with rst := false, start := false }
  match tableFormat nbits w with
  | none => t
  | some .sync8 =>
    (placeBits t t.cursor ((List.range Config.preLen).map fun j =>
      (BitVec.ofNat Config.preLen w).getLsbD (Config.preLen - 1 - j))).goto .search
  | some .msym2 => placeSymbol t w
  | some .post2 => t
  | some .frame64 => { t with P := payloadOfWord (BitVec.ofNat Config.decLen w), phase := .extract }
  | some .phase4 =>
    match phaseOfCode (BitVec.ofNat 4 w) with
    | some p => t.goto p
    | none => t
  | some .hostcmd =>
    (if Phase.isRest s.phase then t else t.goto .idle).withPort
      { rst := false, start := decide (w % 2 = 1), nbits := w / 2 }

/-- One step: `rst` before everything (R180, log 22), else the fetched instruction; either way the ports have
been sampled (log 6). -/
def stepWith (run : Instr → State → Result) (s : State) : Result :=
  if s.port.rst then .next s.popPort.hardReset else run (fetch s) s.popPort

end Sys2Proof.Machine
end

