-- ==== Sys2Proof/Machine/Forms.lean ====
section
/-! DEFINITION. The other forms the spec gives of an operation and declares equivalent to it: the bit-serial
search (R84), the per-pair decoder (R117), and the three forms of the checksum (R125). No step runs them. -/

namespace Sys2Proof.Machine

/-! ### The bit-serial search (R84) -/

/-- `n` bits fed from address `j` on into the shift register `sr`, `fed` bits of which have been fed since the
cursor: a match stands at `j - 7` when at least 8 bits have been fed and the register holds the preamble. -/
def serialFrom (s : State) : Nat → Nat → Nat → BitVec Config.preLen → SearchResult
  | 0, _, _, _ => .notFound
  | n + 1, j, fed, sr =>
    match s.readBit j with
    | none => .outside
    | some b =>
      let sr' := sr.shiftConcat b
      if Config.preLen ≤ fed + 1 ∧ sr' = Config.preamble then .found (j - (Config.preLen - 1))
      else serialFrom s n (j + 1) (fed + 1) sr'

/-- The search with its shift register refilled from the cursor (R84). -/
def serialSearch (s : State) (c : Nat) : SearchResult := serialFrom s (s.nbits - c) c 0 0#Config.preLen

/-! ### The per-pair decoder (R117) -/

/-- One per-pair step: the symbol at `dcur` is read under `MSYM2` and run as the instruction it is; with 64 bits
decoded or no pair left, the decoding is over (R110, R116). -/
def pairStep (s : State) : Result :=
  if s.ndec < Config.decLen ∧ s.dcur + Config.symLen ≤ s.nbits then
    match s.memRead s.dcur Config.symLen with
    | some pair => exec (decodeMsym2 Config.mcOne pair) s
    | none => .fault .bitOutsideRow
  else .next (s.goto .lenchk)

/-- Per-pair steps, at most `n`, while `phase` is `MDEC`. -/
def pairSteps : Nat → State → Result
  | 0, s => .next s
  | n + 1, s =>
    if s.phase = .mdec then
      match pairStep s with
      | .next t => pairSteps n t
      | .fault r => .fault r
      | .refused r => .refused r
    else .next s

/-! ### The forms of the checksum (R125) -/

/-- The message bits, least significant bit first within each byte (R125 (a)). -/
def messageBits (m : List Byte) : List Bool := m.flatMap fun b => (List.range 8).map b.getLsbD

/-- One message bit into the right-shifting register (R125 (a)). -/
def crcRightBit (r : Byte) (u : Bool) : Byte :=
  if r.getLsbD 0 ^^ u then (r >>> 1) ^^^ Config.crcPolyReflected else r >>> 1

/-- One message bit into the left-shifting register with the unreflected constant (R125 (b)). -/
def crcLeftBit (c : Byte) (u : Bool) : Byte :=
  if c.getLsbD 7 ^^ u then (c <<< 1) ^^^ Config.crcPoly else c <<< 1

/-- `reverse8` (R125 (b)): bit `j` swapped with bit `7 - j`. -/
def reverse8 (r : Byte) : Byte := r.reverse

/-- The bit-serial form (R125 (a)). -/
def crcBitSerial (m : List Byte) : Byte := (messageBits m).foldl crcRightBit Config.crcInit

/-- The left-shifting form (R125 (b)); it holds the register reversed, the initial value too. -/
def crcLeftShift (m : List Byte) : Byte := reverse8 ((messageBits m).foldl crcLeftBit (reverse8 Config.crcInit))

end Sys2Proof.Machine
end

