-- ==== Sys2Proof/Machine/Reference.lean ====
section
/-! DEFINITION. `Run(buf, nbits)` (R7), the observable behaviour of one invocation as a function of the buffer and
its length alone, written over the bits of the buffer and not over the machine's operations, so that the machine's
refinement of it says something. The literals are `Config`'s (R9). -/

namespace Sys2Proof.Machine

/-- `Match8(p)`, bit by bit (R81). -/
def refMatch (bit : Nat → Bool) (nbits p : Nat) : Bool :=
  decide (p + Config.preLen ≤ nbits)
    && (List.range Config.preLen).all fun j => bit (p + j) == Config.preamble.getLsbD (Config.preLen - 1 - j)

/-- `Search(c)` (R80). -/
def refSearch (bit : Nat → Bool) (nbits c : Nat) : Option Nat :=
  (List.range' c (nbits - c)).find? (refMatch bit nbits)

/-- How many pairs of the body at `d` are valid before the first invalid one, at most all of them (R113). -/
def refValid (bit : Nat → Bool) (d : Nat) : Nat :=
  ((List.range Config.decLen).takeWhile fun k =>
    bit (d + Config.symLen * k) != bit (d + Config.symLen * k + 1)).length

/-- Byte `i` of the body at `d`, all its pairs valid (R111, R112). -/
def refByte (mc : McOne) (bit : Nat → Bool) (d i : Nat) : Byte :=
  (List.range 8).foldl
    (fun v j => v.shiftConcat
      (mdecBit mc (bit (d + Config.symLen * (8 * i + j))) (bit (d + Config.symLen * (8 * i + j) + 1)))) 0#8

/-- The cursor the decoder returns (R114). -/
def refDcur (bit : Nat → Bool) (d : Nat) : Nat :=
  if refValid bit d = Config.decLen then d + Config.rawLen else d + Config.symLen * (refValid bit d + 1)

/-- The record of a payload (R135 to R142). -/
def refRecord (b : Nat → Byte) : FrameRecord where
  model := Config.modelId
  id := (b Config.idHighByte).toNat * 2 ^ 16 + (b Config.idMiddleByte).toNat * 2 ^ 8 + (b Config.idLowByte).toNat
  flags := (b Config.flagsByte).toNat
  maybetemp := (b Config.maybetempByte).toNat
  temperatureC := ((b Config.maybetempByte).toNat : Rat) / (Config.tempDivisor : Rat)
  bindingCountdown := if (b Config.flagsByte).getLsbD Config.bindingBit then (b Config.depthByte).toNat else 0
  depth := (b Config.depthByte).toNat

/-- The record a candidate with its preamble at `p` yields, if it passes the three tests (R115, R120, R126). -/
def refCandidate (mc : McOne) (bit : Nat → Bool) (nbits p : Nat) : Option FrameRecord :=
  let d := p + Config.preLen
  let b := refByte mc bit d
  let last := (b Config.lastByte).getLsbD 0
  if refValid bit d = Config.decLen ∧ p + Config.guardLen + Config.postLen ≤ nbits
      ∧ bit (p + Config.guardLen) = last ∧ bit (p + Config.guardLen + 1) = last
      ∧ crc8 ((List.range Config.crcBytes).map b) = b Config.checksumByte then
    some (refRecord b)
  else none

/-- R7's loop from `cursor`, at most `n` candidates. -/
def refLoop (mc : McOne) (ra : ResumeAt) (bit : Nat → Bool) (nbits : Nat) : Nat → Nat → List FrameRecord
  | 0, _ => []
  | n + 1, cursor =>
    match refSearch bit nbits cursor with
    | none => []
    | some p =>
      if p + Config.guardLen ≤ nbits then
        (refCandidate mc bit nbits p).toList
          ++ refLoop mc ra bit nbits n (resumeCursor ra (p + Config.preLen) (refDcur bit (p + Config.preLen)))
      else []

/-- The records of `Run(buf, nbits)`, in order (R7); `count` is their number. Every candidate moves the cursor on
by 8 or more (R105), so `nbits + 1` candidates are more than there can be. -/
def refRun (mc : McOne) (ra : ResumeAt) (bit : Nat → Bool) (nbits : Nat) : List FrameRecord :=
  refLoop mc ra bit nbits (nbits + 1) 0

end Sys2Proof.Machine
end

