-- ==== Sys2Proof/Safety.lean ====
section
/-! DEFINITION. What the claims speak of: runs, the invariant of the reachable states (R34), the host's duties
(R183, R184, R186), the phase graph (R91), and occurrences, pairs and frames as the spec's words give them. -/

namespace Sys2Proof.Machine

/-- `k` steps of the machine. -/
def runs (k : Nat) (s : State) : Result := Host.Core.run Sys2Proof.core k s

/-- The place of a phase in the order of R12's table, for the phrase "in phases X to Y" (R34). -/
def Phase.index (p : Phase) : Nat := (Phase.code p).toNat

/-- The phase is one of `a` to `b` in R12's order. -/
def Phase.between (p a b : Phase) : Prop := Phase.index a ≤ Phase.index p ∧ Phase.index p ≤ Phase.index b

/-! ### The buffer, in the spec's words -/

/-- An occurrence of the preamble at `p` (R81): a full window, its eight bits as R61 lists them. -/
def State.occursAt (s : State) (p : Nat) : Prop :=
  p + 8 ≤ s.nbits
    ∧ s.readBit p = some false ∧ s.readBit (p + 1) = some true ∧ s.readBit (p + 2) = some false
    ∧ s.readBit (p + 3) = some true ∧ s.readBit (p + 4) = some true ∧ s.readBit (p + 5) = some false
    ∧ s.readBit (p + 6) = some false ∧ s.readBit (p + 7) = some false

/-- Pair `k` of the body at `d` is a valid symbol (R111): both bits exist and differ. -/
def State.validPair (s : State) (d k : Nat) : Prop :=
  ∃ a b, s.readBit (d + 2 * k) = some a ∧ s.readBit (d + 2 * k + 1) = some b ∧ a ≠ b

/-- Pair `k` of the body at `d` is an invalid symbol (R113): both bits exist and are equal. -/
def State.invalidPair (s : State) (d k : Nat) : Prop :=
  ∃ a, s.readBit (d + 2 * k) = some a ∧ s.readBit (d + 2 * k + 1) = some a

/-- The decoded bit of pair `k` of the body at `d` (R111), for bits that exist. -/
def State.pairValue (s : State) (d k : Nat) : Bool :=
  mdecBit Config.mcOne (Memory.bit s.mem (d + 2 * k)) (Memory.bit s.mem (d + 2 * k + 1))

/-- The two raw bits of decoded bit `v`, the test aid `Manch` (R74) on one bit. -/
def manchBit (mc : McOne) (v : Bool) : List Bool :=
  match mc with
  | .pair01 => [!v, v]
  | .pair10 => [v, !v]

/-- The test aid `Frame` (R65, R74) for any payload: preamble, body, postamble, in stream order. -/
def frameBits (mc : McOne) (P : Payload) : List Bool :=
  [false, true, false, true, true, false, false, false]
    ++ (List.range 64).flatMap (fun k => manchBit mc (pbit P k))
    ++ [pbit P 63, pbit P 63]

/-- The row holds the frame of payload `P` from address `p` on (R65). -/
def State.holdsFrame (s : State) (p : Nat) (P : Payload) : Prop :=
  ∀ i, i < 138 → s.readBit (p + i) = (frameBits Config.mcOne P)[i]?

/-! ### Host duties -/

/-- The host keeps R24, R184 and never asserts `rst` (R192: a model of the source's behaviour has no such move):
every `NBITS` it gives with `start` is at most the row's true length and fits in `W` bits. -/
def State.hostOk (s : State) : Prop :=
  s.rowLen < 2 ^ Config.W
    ∧ ∀ p ∈ s.inputs, p.rst = false ∧ (p.start = true → p.nbits ≤ s.rowLen)

/-! ### The invariant -/

/-- What holds in every state of a run (R34 and what its clauses rest on). -/
structure State.Inv (s : State) : Prop where
  /-- R184, as the host keeps it. -/
  nbits_le : s.nbits ≤ s.rowLen
  /-- R34 (a). -/
  cursor_le : s.cursor ≤ s.nbits
  /-- R104: every stored position is at most `nbits`. -/
  mpos_le : s.mpos ≤ s.nbits
  /-- R104: every stored position is at most `nbits`. -/
  dcur_le : s.dcur ≤ s.nbits
  /-- R34 (d). -/
  ndec_le : s.ndec ≤ 64
  /-- R34 (b). -/
  found_match : Phase.between s.phase .guard .resume → s.found = true ∧ s.mpos + 8 ≤ s.nbits
  /-- The match lies at or after the scan cursor (R80). -/
  match_after_cursor : Phase.between s.phase .guard .skip → s.cursor ≤ s.mpos
  /-- R34 (c), the guard's bound. -/
  body_fits : Phase.between s.phase .skip .resume → s.mpos + 136 ≤ s.nbits
  /-- R34 (c), the cursor. -/
  past_preamble : Phase.between s.phase .mdec .resume → s.cursor = s.mpos + 8
  /-- The scratch is fresh on entry to `MDEC` (R94, R110, R185). -/
  fresh_scratch : s.phase = .mdec → s.dcur = s.mpos + 8 ∧ s.ndec = 0 ∧ s.P = pzero
  /-- R34 (e). -/
  dcur_bounds : Phase.between s.phase .lenchk .resume → s.mpos + 8 ≤ s.dcur ∧ s.dcur ≤ s.mpos + 136
  /-- R16: a full decode ends 128 bits on. -/
  full_cursor : s.phase = .lenchk → s.ndec = 64 → s.dcur = s.mpos + 136
  /-- R34 (f). -/
  full_decode : Phase.between s.phase .postchk .emit → s.ndec = 64 ∧ s.dcur = s.mpos + 136
  /-- R34 (g), the postamble lies in the buffer. -/
  post_fits : Phase.between s.phase .crcchk .emit → s.dcur + 2 ≤ s.nbits
  /-- R34 (g), the checksum. -/
  crc_match : Phase.between s.phase .extract .emit → s.crc = pbyte s.P 7
  /-- R34 (i). -/
  tail_zero : ∀ k, s.ndec ≤ k → k < 64 → pbit s.P k = false
  /-- R105: every candidate moves the cursor on by 8 or more. -/
  count_cursor : 8 * s.count ≤ s.cursor
  /-- The candidate in hand has moved it once more (R105). -/
  count_candidate : Phase.between s.phase .mdec .emit → 8 * (s.count + 1) ≤ s.cursor
  /-- R107, the bound on `count`. -/
  count_bound : 0 < s.count → 8 * s.count + 128 ≤ s.nbits
  /-- R151: every counted record reached the sink. -/
  count_sink : s.count ≤ s.sink.length
  /-- R20: `rec_id[31:24]` is always 0. -/
  id_top : s.record.id.toNat < 2 ^ 24
  /-- R139: `rec_temp_q2` has the bit pattern of `maybetemp`. -/
  temp_same : s.record.tempQ2 = s.record.maybetemp
  /-- R140, R141: the countdown is the depth byte gated by `flags` bit 0. -/
  binding_gated : s.record.bindingCountdown = bindingCountdown s.record.flags s.record.depth
  /-- The buffer stays in canonical form (R41). -/
  mem_wf : Memory.wf s.mem

/-! ### Control -/

/-- The control transfers of R12 and R91, `START` apart. -/
def Phase.mayGo : Phase → Phase → Prop
  | .idle, q => q = .idle
  | .search, q => q = .guard ∨ q = .finish
  | .guard, q => q = .skip ∨ q = .finish
  | .skip, q => q = .mdec
  | .mdec, q => q = .lenchk
  | .lenchk, q => q = .postchk ∨ q = .resume
  | .postchk, q => q = .crcchk ∨ q = .resume
  | .crcchk, q => q = .extract ∨ q = .resume
  | .extract, q => q = .emit
  | .emit, q => q = .resume
  | .resume, q => q = .search
  | .finish, q => q = .done
  | .done, q => q = .done

/-- The part of the state other than what the host drives and what the sink holds: the core's registers and the
buffer. -/
def State.bare (s : State) : State := { s with inputs := [], sink := [] }

end Sys2Proof.Machine
end

