-- ==== Sys2Proof/Certificates/Slice0/Obligations.lean ====
section
/-! DEFINITION. The statements about the machine. Each docstring names the rule of the spec it formalises, or the
log entry when it rests on the model's own choice. -/

open Sys2Proof Sys2Proof.Machine

/-! ### Reset and start -/

/-- R180, R192: `rst` has priority over every operation and over `start`; every register takes its value of R33's
column "after `rst`", records already emitted stay with the sink, and the buffer is untouched. That `rst` takes
exactly one step, in place of the operation, is the model's reading (log 22), and that the step uses up one entry of
the ports is the model's choice (log 6). -/
def Obligations.RstResetsEveryRegister : Prop :=
  ∀ s : State, s.port.rst = true → ∃ t, step s = .next t
    ∧ t.phase = .idle ∧ t.nbits = 0 ∧ t.cursor = 0 ∧ t.mpos = 0 ∧ t.found = false ∧ t.dcur = 0 ∧ t.ndec = 0
    ∧ (∀ i, i < 8 → pbyte t.P i = 0#8) ∧ t.crc = 0#8 ∧ t.count = 0
    ∧ t.record = ⟨0#32, 0#8, 0#8, 0#8, 0#8, 0#8⟩
    ∧ t.busy = false ∧ t.done = false ∧ t.recValid = false
    ∧ t.mem = s.mem ∧ t.rowLen = s.rowLen ∧ t.sink = s.sink ∧ t.inputs = s.inputs.tail

/-- The state right after reset: R33's values; an empty row, no port value listed and no record received, which are
the model's choice (log 16). -/
def Obligations.ResetStateValues : Prop :=
  State.reset.phase = .idle ∧ State.reset.nbits = 0 ∧ State.reset.cursor = 0 ∧ State.reset.mpos = 0
    ∧ State.reset.found = false ∧ State.reset.dcur = 0 ∧ State.reset.ndec = 0
    ∧ (∀ i, i < 8 → pbyte State.reset.P i = 0#8) ∧ State.reset.crc = 0#8 ∧ State.reset.count = 0
    ∧ State.reset.record = ⟨0#32, 0#8, 0#8, 0#8, 0#8, 0#8⟩
    ∧ State.reset.busy = false ∧ State.reset.done = false ∧ State.reset.recValid = false
    ∧ State.reset.mem = [] ∧ State.reset.rowLen = 0 ∧ State.reset.inputs = [] ∧ State.reset.sink = []

/-- R90: `START` in a rest phase latches `NBITS`, clears every other register and goes to `SEARCH`; `busy` is then 1
and `done` 0; nothing outside the core changes. Elsewhere the command is ignored; a rest phase that sees the input
`start` runs it, on the state whose ports have been sampled once, which is the model's choice (log 6). -/
def Obligations.StartReinitialisesTheCore : Prop :=
  (∀ (n : Nat) (s : State), s.busy = true → exec (.start n) s = .next s) ∧
  (∀ s : State, s.busy = false → s.port.rst = false → s.port.start = true →
    step s = exec (.start s.port.nbits) s.popPort) ∧
  ∀ (n : Nat) (s : State), s.busy = false → ∃ t, exec (.start n) s = .next t
    ∧ t = { phase := .search, nbits := n, cursor := 0, mpos := 0, found := false, dcur := 0, ndec := 0,
            P := Vector.replicate 8 0#8, crc := 0x00#8, count := 0,
            record := ⟨0#32, 0#8, 0#8, 0#8, 0#8, 0#8⟩,
            mem := s.mem, rowLen := s.rowLen, inputs := s.inputs, sink := s.sink }
    ∧ t.busy = true ∧ t.done = false

/-- R187: a `start` raised while `busy = 1` neither restarts nor queues an invocation. -/
def Obligations.StartWhileBusyIsIgnored : Prop :=
  ∀ s : State, s.busy = true →
    (∀ n, exec (.start n) s = .next s)
      ∧ (s.port.rst = false → step s = step (s.withPort ⟨false, false, s.port.nbits⟩))

/-! ### The preamble locator -/

/-- R80, R81: `SEARCH`, phase code 1, answers the least occurrence at or after `cursor`; with none it goes to `FINISH` with
`mpos` unchanged. Nothing else changes, and no row of the buffer is written. -/
def Obligations.SearchFindsTheLeastOccurrence : Prop :=
  decode Config.mcOne .phase4 1 = .ok .search ∧
  ∀ s : State,
    (∀ p, s.cursor ≤ p → s.occursAt p → (∀ q, s.cursor ≤ q → q < p → ¬ s.occursAt q) →
      exec .search s = .next { s with found := true, mpos := p, phase := .guard })
    ∧ ((s.cursor + 8 ≤ s.nbits → s.nbits ≤ s.rowLen) → (∀ p, s.cursor ≤ p → ¬ s.occursAt p) →
      exec .search s = .next { s with found := false, phase := .finish })

/-- The model's choice (log 4): a read of a bit the row does not have faults, in each of the three operations that
read. -/
def Obligations.ReadsOutsideTheRowFault : Prop :=
  ∀ s : State,
    ((∀ p, s.cursor ≤ p → ¬ s.occursAt p) → s.cursor + 8 ≤ s.nbits → s.rowLen < s.nbits →
      exec .search s = .fault .bitOutsideRow)
    ∧ (∀ n, n < 64 → (∀ k, k < n → s.validPair s.dcur k) → s.dcur + 128 ≤ s.nbits →
        s.rowLen < s.dcur + 2 * n + 2 → exec .mdec s = .fault .bitOutsideRow)
    ∧ (s.dcur + 2 ≤ s.nbits → s.rowLen < s.dcur + 2 → exec .postchk s = .fault .bitOutsideRow)

/-- R84: the bit-serial form, its shift register refilled from the cursor, answers what `Search` answers. -/
def Obligations.BitSerialSearchAgrees : Prop :=
  ∀ (s : State) (c : Nat), s.nbits ≤ s.rowLen → serialSearch s c = s.search c

/-- The pattern `PREAMBLE` is what `SEARCH` does on a window at the scan cursor (log 1): an occurrence there is
taken (R85 (c)), a window that does not fit ends the scan (R85 (a)). -/
def Obligations.PreambleAtTheCursorIsSearch : Prop :=
  ∀ s : State,
    (s.cursor + 8 ≤ s.nbits →
      exec .preamble s = .next { s with found := true, mpos := s.cursor, phase := .guard })
    ∧ (s.nbits < s.cursor + 8 → exec .preamble s = .next { s with found := false, phase := .finish })
    ∧ (s.occursAt s.cursor ∨ s.nbits < s.cursor + 8 → exec .search s = exec .preamble s)

/-- R85 (f): no preamble lies inside a correctly coded body, nor starts in it and ends one bit behind it. -/
def Obligations.NoPreambleInsideAValidBody : Prop :=
  ∀ (s : State) (d : Nat), (∀ k, k < 64 → s.validPair d k) →
    ∀ p, d ≤ p → p + 6 < d + 128 → ¬ s.occursAt p

/-! ### The discovery loop -/

/-- R93: `GUARD`, phase code 2, compares the exact sum `mpos + 136` with `nbits` and writes `phase` only. -/
def Obligations.GuardTestsTheRemainingLength : Prop :=
  decode Config.mcOne .phase4 2 = .ok .guard ∧
  ∀ s : State, exec .guard s = .next { s with phase := if s.mpos + 136 ≤ s.nbits then .skip else .finish }

/-- R94: `SKIP`, phase code 3, moves both cursors past the preamble and clears the scratch. -/
def Obligations.SkipPreparesAFreshScratch : Prop :=
  decode Config.mcOne .phase4 3 = .ok .skip ∧
  ∀ s : State, exec .skip s = .next
    { s with cursor := s.mpos + 8, dcur := s.mpos + 8, ndec := 0, P := Vector.replicate 8 0x00#8, phase := .mdec }

/-- R100, R101: `RESUME`, phase code 10, goes back to `SEARCH` and leaves `cursor` where `SKIP` put it; the
alternative `after_decode` moves it to `dcur`. -/
def Obligations.ResumeReturnsToTheScan : Prop :=
  decode Config.mcOne .phase4 10 = .ok .resume ∧
  (∀ s : State, exec .resume s = .next { s with phase := .search }) ∧
  ∀ s : State, s.returnToScan .afterDecode = { s with cursor := s.dcur, phase := .search }

/-- R102: `FINISH`, phase code 11, ends the invocation; every other register keeps its value and `count` is the
result the host may rely on. -/
def Obligations.FinishEndsTheInvocation : Prop :=
  decode Config.mcOne .phase4 11 = .ok .finish ∧
  ∀ s : State, ∃ t, exec .finish s = .next t ∧ t = { s with phase := .done }
    ∧ t.busy = false ∧ t.done = true ∧ t.result = some s.count

/-- R12: the rest phases perform no operation; without `start` the core waits there. -/
def Obligations.RestPhasesWait : Prop :=
  (∀ s : State, exec .idle s = .next s ∧ exec .done s = .next s) ∧
  ∀ s : State, s.busy = false → s.port.rst = false → s.port.start = false → step s = .next s.popPort

/-! ### The Manchester decoder -/

/-- R62: the four symbols; under the other legal value of `MC_ONE` the first two swap. -/
def Obligations.SymbolsFollowMcOne : Prop :=
  (decode .pair01 .msym2 0b10 = .ok .ms0 ∧ decode .pair01 .msym2 0b01 = .ok .ms1
    ∧ decode .pair01 .msym2 0b00 = .ok .msx0 ∧ decode .pair01 .msym2 0b11 = .ok .msx1)
  ∧ (decode .pair10 .msym2 0b01 = .ok .ms0 ∧ decode .pair10 .msym2 0b10 = .ok .ms1
    ∧ decode .pair10 .msym2 0b00 = .ok .msx0 ∧ decode .pair10 .msym2 0b11 = .ok .msx1)
  ∧ Config.mcOne = .pair01

/-- R110, R112, R113, R114: from a body whose first `n` pairs are valid and whose pair `n` is invalid (or `n = 64`),
`MDEC`, phase code 4, decodes exactly `n` bits, bit `k` at bit `7 - (k mod 8)` of `P[k div 8]`, every later bit 0, and leaves `dcur`
past the consumed pairs, the invalid one among them; it writes nothing else but `phase`. -/
def Obligations.MdecDecodesTheBody : Prop :=
  decode Config.mcOne .phase4 4 = .ok .mdec ∧
  (∀ a b, mdecBit .pair01 a b = b ∧ mdecBit .pair10 a b = a) ∧
  ∀ (s : State) (n : Nat), n ≤ 64 → s.dcur + 128 ≤ s.nbits →
    (∀ k, k < n → s.validPair s.dcur k) → (n < 64 → s.invalidPair s.dcur n) →
    ∃ P : Payload, exec .mdec s = .next
        { s with P := P, ndec := n, dcur := if n = 64 then s.dcur + 128 else s.dcur + 2 * (n + 1), phase := .lenchk }
      ∧ ∀ k, k < 64 → (pbyte P (k / 8)).getLsbD (7 - k % 8) = (decide (k < n) && s.pairValue s.dcur k)

/-- The total form R116 allows (log 12): a row that ends within the body ends the decoding as an invalid pair does,
without `dcur` advancing over the pair that is not there. -/
def Obligations.MdecStopsWhereTheRowEnds : Prop :=
  ∀ (s : State) (n : Nat), n < 64 → (∀ k, k < n → s.validPair s.dcur k ∧ s.dcur + 2 * k + 2 ≤ s.nbits) →
    s.nbits < s.dcur + 2 * n + 2 →
    ∃ P : Payload, exec .mdec s = .next { s with P := P, ndec := n, dcur := s.dcur + 2 * n, phase := .lenchk }
      ∧ ∀ k, k < 64 → pbit P k = (decide (k < n) && s.pairValue s.dcur k)

/-- The symbols as the per-pair decoder runs them (R117, log 1): a valid one writes one decoded bit, an invalid one
ends the decoding; with 64 bits decoded or no pair left nothing is consumed (log 12). -/
def Obligations.SymbolsConsumeOnePair : Prop :=
  ∀ s : State,
    (s.ndec < 64 → s.dcur + 2 ≤ s.nbits →
      (∀ b : Bool, ∃ P : Payload, exec (if b then .ms1 else .ms0) s = .next
          { s with
            P := P
            ndec := s.ndec + 1
            dcur := s.dcur + 2
            phase := if s.ndec + 1 < 64 then .mdec else .lenchk }
        ∧ ∀ k, k < 64 → pbit P k = (pbit s.P k || (decide (k = s.ndec) && b)))
      ∧ exec .msx0 s = .next { s with dcur := s.dcur + 2, phase := .lenchk }
      ∧ exec .msx1 s = .next { s with dcur := s.dcur + 2, phase := .lenchk })
    ∧ (64 ≤ s.ndec ∨ s.nbits < s.dcur + 2 →
      ∀ i ∈ [Instr.ms0, .ms1, .msx0, .msx1], exec i s = .next { s with phase := .lenchk })

/-- R117: one step per pair, each symbol read under `MSYM2` and run as the instruction it is, ends where `MDEC`
ends. -/
def Obligations.PerPairDecoderAgrees : Prop :=
  ∀ s : State, s.phase = .mdec → s.ndec = 0 → s.P = pzero → pairSteps 65 s = exec .mdec s

/-- R115: `LENCHK`, phase code 5, passes exactly 64 decoded bits, rejects every other count, and writes `phase`
only. -/
def Obligations.LenchkRequiresSixtyFourBits : Prop :=
  decode Config.mcOne .phase4 5 = .ok .lenchk ∧
  ∀ s : State, exec .lenchk s = .next { s with phase := if s.ndec = 64 then .postchk else .resume }

/-- R118 (d): one flipped raw bit anywhere in a valid body makes the decode short, and `LENCHK` rejects it. -/
def Obligations.SingleRawBitErrorIsRejected : Prop :=
  ∀ (s : State) (i : Nat), Memory.wf s.mem → s.dcur + 128 ≤ s.nbits → (∀ k, k < 64 → s.validPair s.dcur k) →
    s.dcur ≤ i → i < s.dcur + 128 →
    ∃ u, exec .mdec { s with mem := Memory.setBit s.mem i (!Memory.bit s.mem i) } = .next u
      ∧ u.ndec < 64 ∧ exec .lenchk u = .next { u with phase := .resume }

/-! ### The frame validator -/

/-- R120, R121, R122: `POSTCHK`, phase code 6, passes when both bits at `dcur` equal the last decoded bit, rejects
otherwise, rejects without a read when they do not both lie below `nbits`, and writes `phase` only. -/
def Obligations.PostchkComparesTwoBits : Prop :=
  decode Config.mcOne .phase4 6 = .ok .postchk ∧
  ∀ s : State,
    (∀ a b, s.dcur + 2 ≤ s.nbits → s.readBit s.dcur = some a → s.readBit (s.dcur + 1) = some b →
      exec .postchk s = .next { s with
        phase := if a = (pbyte s.P 7).getLsbD 0 ∧ b = (pbyte s.P 7).getLsbD 0 then .crcchk else .resume })
    ∧ (s.nbits < s.dcur + 2 → exec .postchk s = .next { s with phase := .resume })

/-- The postambles as patterns (R63, log 1): each passes after its own last decoded bit and only inside the buffer;
`POSTCHK` is the meaning of the pattern it reads, and rejects the pairs that are no postamble. -/
def Obligations.PostamblesArePostchk : Prop :=
  ∀ s : State,
    exec .pa0 s = .next { s with phase := if s.dcur + 2 ≤ s.nbits ∧ pbit s.P 63 = false then .crcchk else .resume }
    ∧ exec .pa1 s = .next { s with phase := if s.dcur + 2 ≤ s.nbits ∧ pbit s.P 63 = true then .crcchk else .resume }
    ∧ ∀ pair : BitVec 2, s.dcur + 2 ≤ s.nbits → s.memRead s.dcur 2 = some pair →
      match decode Config.mcOne .post2 pair.toNat with
      | .ok i => exec .postchk s = exec i s
      | .error _ => exec .postchk s = .next { s with phase := .resume }

/-- R126, R129: `CRCCHK`, phase code 7, computes the checksum of `P[0]` to `P[6]` into `crc`, compares it with
`P[7]`, and writes `crc` and `phase` only. -/
def Obligations.CrcchkComparesTheChecksum : Prop :=
  decode Config.mcOne .phase4 7 = .ok .crcchk ∧
  ∀ s : State,
    let c := crc8 [pbyte s.P 0, pbyte s.P 1, pbyte s.P 2, pbyte s.P 3, pbyte s.P 4, pbyte s.P 5, pbyte s.P 6]
    exec .crcchk s = .next { s with crc := c, phase := if c = pbyte s.P 7 then .extract else .resume }

/-- R125: the bit-serial form, the left-shifting form with the unreflected polynomial, and the bytewise form by
table. -/
def Obligations.ChecksumFormsAgree : Prop :=
  ∀ m : List Byte, crcBitSerial m = crc8 m ∧ crcLeftShift m = crc8 m
    ∧ ∀ b : Byte, crc8 (m ++ [b]) = crc8 [crc8 m ^^^ b]

/-- R128 (a), (b), (c): the all-zero payload passes, a message with its checksum leaves zero, so that the check is
equivalent to a zero checksum of all eight bytes, and the checksum is linear on messages of one length. -/
def Obligations.ChecksumResidueAndLinearity : Prop :=
  crc8 [0#8, 0#8, 0#8, 0#8, 0#8, 0#8, 0#8] = 0#8
  ∧ (∀ m : List Byte, crc8 (m ++ [crc8 m]) = 0#8)
  ∧ (∀ P : Payload, crcOk P = true ↔ crc8 P.toList = 0#8)
  ∧ ∀ a b : List Byte, a.length = b.length →
      crc8 (List.zipWith (fun x y => x ^^^ y) a b) = crc8 a ^^^ crc8 b

/-- R128 (d): of a payload that passes, every single-bit and every double-bit error in the 64 decoded bits is
detected. -/
def Obligations.ChecksumDetectsTwoBitErrors : Prop :=
  ∀ (P Q : Payload) (k l : Nat), k < 64 → l < 64 → crcOk P = true →
    (∀ j, j < 64 → pbit Q j = (pbit P j ^^ decide (j = k ∨ j = l))) → crcOk Q = false

/-! ### The field extractor and the record emitter -/

/-- R135 to R141: `EXTRACT`, phase code 8, writes the record register whole from `P[0]` to `P[5]`: the 24-bit
identifier zero-extended, byte 5 gated by `flags` bit 0 and read again as `depth`. The record it stands for has the
constant model string and the exact quotient of byte 4 by four. -/
def Obligations.ExtractBuildsTheRecord : Prop :=
  decode Config.mcOne .phase4 8 = .ok .extract ∧
  ∀ s : State, exec .extract s = .next
    { s with
      record :=
        { id := ((pbyte s.P 0).setWidth 32 <<< 16) ||| ((pbyte s.P 1).setWidth 32 <<< 8) ||| (pbyte s.P 2).setWidth 32
          flags := pbyte s.P 3
          maybetemp := pbyte s.P 4
          tempQ2 := pbyte s.P 4
          bindingCountdown := if (pbyte s.P 3).getLsbD 0 = true then pbyte s.P 5 else 0x00#8
          depth := pbyte s.P 5 }
      phase := .emit }
    ∧ (extractRecord s.P).toSink.model = "Oil-Proteus"
    ∧ (extractRecord s.P).toSink.temperatureC = ((pbyte s.P 4).toNat : Rat) / 4

/-- The layout `FRAME` (R64, log 1): the 64-bit value of the payload registers decodes to a frame whose meaning is
`EXTRACT`; a frame builds the record of its own fields. -/
def Obligations.FrameLayoutIsExtract : Prop :=
  (∀ s : State, ∃ i, decode Config.mcOne .frame64 (pword s.P).toNat = .ok i ∧ exec .extract s = exec i s)
  ∧ ∀ (u : BitVec 24) (f t d x c : Byte) (s : State), exec (.frame u f t d x c) s = .next
      { s with
        record :=
          { id := u.setWidth 32, flags := f, maybetemp := t, tempQ2 := t,
            bindingCountdown := if f.getLsbD 0 = true then d else 0x00#8, depth := d }
        phase := .emit }

/-- R144: bytes 6 and 7 do not reach the record. -/
def Obligations.BytesSixAndSevenDoNotReachTheRecord : Prop :=
  ∀ (s : State) (Q : Payload), (∀ i, i < 6 → pbyte Q i = pbyte s.P i) →
    ∃ t u, exec .extract s = .next t ∧ exec .extract { s with P := Q } = .next u ∧ u.record = t.record

/-- R150: `EMIT`, phase code 9, hands the sink one record of the seven named fields, the temperature the exact
quotient by four, counts it, and goes to `RESUME`; `rec_valid` is 1 in the step that runs it. -/
def Obligations.EmitHandsOverOneRecord : Prop :=
  decode Config.mcOne .phase4 9 = .ok .emit ∧
  ∀ s : State, exec .emit s = .next
    { s with
      sink := s.sink ++
        [{ model := "Oil-Proteus"
           id := s.record.id.toNat
           flags := s.record.flags.toNat
           maybetemp := s.record.maybetemp.toNat
           temperatureC := (s.record.tempQ2.toNat : Rat) / 4
           bindingCountdown := s.record.bindingCountdown.toNat
           depth := s.record.depth.toNat }]
      count := s.count + 1
      phase := .resume }
    ∧ (s.phase = .emit → s.port.rst = false → s.recValid = true)

/-- R151, R21: the sink's sequence grows in the steps with `rec_valid = 1`, by the record in the register, and in no
other; `count` goes up by one in exactly those, and is cleared only by `rst` and by an honoured `START`. -/
def Obligations.RecordsAndCountMoveTogether : Prop :=
  ∀ s t : State, step s = .next t →
    (s.recValid = true ∧ t.sink = s.sink ++ [s.record.toSink] ∧ t.count = s.count + 1)
    ∨ (s.recValid = false ∧ t.sink = s.sink
        ∧ t.count = if s.port.rst = true ∨ (s.busy = false ∧ s.port.start = true) then 0 else s.count)

/-- R145: the binary64 rendering is all-zero for `m = 0`, else has sign 0 and the exponent and fraction R145 gives;
it denotes exactly `m / 4`. -/
def Obligations.TemperatureRenderingIsExact : Prop :=
  temperatureBinary64 0#8 = 0#64 ∧
  ∀ m : Byte, m ≠ 0#8 →
    (temperatureBinary64 m).getLsbD 63 = false ∧
    ((temperatureBinary64 m).extractLsb' 52 11).toNat = 1023 + Nat.log2 m.toNat - 2 ∧
    ((temperatureBinary64 m).extractLsb' 0 52).toNat = (m.toNat * 2 ^ (52 - Nat.log2 m.toNat)) % 2 ^ 52 ∧
    (2 ^ 52 + ((temperatureBinary64 m).extractLsb' 0 52).toNat) * 2 ^ ((temperatureBinary64 m).extractLsb' 52 11).toNat * 4
      = m.toNat * 2 ^ 1075

/-! ### Encodings -/

/-- The decoder inverts the encoder on every well-formed instruction, for either value of `MC_ONE`. -/
def Obligations.DecodeInvertsEncode : Prop :=
  ∀ (mc : McOne) (i : Instr), i.wf = true → decode mc (encode mc i).1 (encode mc i).2 = .ok i

/-- Every word has at most one meaning in its format: what decodes encodes to the same word. -/
def Obligations.EncodeInvertsDecode : Prop :=
  ∀ (mc : McOne) (f : Format) (w : Nat) (i : Instr), decode mc f w = .ok i → encode mc i = (f, w)

/-- Words written out from R61, R63, R64, R70 and R72. -/
def Obligations.WordsDecodeAsTheTablesSay : Prop :=
  decode .pair01 .sync8 0x58 = .ok .preamble
  ∧ decode .pair01 .post2 0b00 = .ok .pa0 ∧ decode .pair01 .post2 0b11 = .ok .pa1
  ∧ decode .pair01 .phase4 1 = .ok .search ∧ decode .pair01 .phase4 4 = .ok .mdec
  ∧ decode .pair01 .phase4 0 = .ok .idle ∧ decode .pair01 .phase4 12 = .ok .done
  ∧ decode .pair01 .hostcmd 277 = .ok (.start 138)
  ∧ decode .pair01 .frame64 0x12345600342A00DF = .ok (.frame 0x123456#24 0x00#8 0x34#8 0x2A#8 0x00#8 0xDF#8)

/-- R61, R63, R71, R72: every word of a format that no row of the table has is refused, by name. The layout of the
host command's word, `start` its bit 0, is the model's choice (log 19). -/
def Obligations.ReservedPatternsAreRefused : Prop :=
  ∀ mc : McOne,
    (∀ w, w < 256 → w ≠ 0x58 → decode mc .sync8 w = .error .notPreamble)
    ∧ (∀ w, w = 1 ∨ w = 2 → decode mc .post2 w = .error .notPostamble)
    ∧ (∀ w, 13 ≤ w → w < 16 → decode mc .phase4 w = .error .reservedPhase)
    ∧ ∀ n, decode mc .hostcmd (2 * n) = .error .startLow

/-- A step runs the decoded instruction: with `rst` low, the host command in a rest phase that sees `start`, else the
instruction the code of `phase` decodes to; exactly one entry of the ports is sampled. -/
def Obligations.StepRunsTheDecodedInstruction : Prop :=
  ∀ s : State, s.port.rst = false →
    ((s.busy = false ∧ s.port.start = true) → step s = exec (.start s.port.nbits) s.popPort)
    ∧ ∀ i, ¬ (s.busy = false ∧ s.port.start = true) →
        decode Config.mcOne .phase4 (Phase.code s.phase).toNat = .ok i → step s = exec i s.popPort

/-- R22, R26: `busy` is 1 exactly in the phases of codes 1 to 11, `done` exactly in `DONE`; `count` is the result
only while `done` is 1 (R27). -/
def Obligations.StatusOutputsFollowPhase : Prop :=
  ∀ s : State,
    (s.busy = true ↔ 1 ≤ (Phase.code s.phase).toNat ∧ (Phase.code s.phase).toNat ≤ 11)
    ∧ (s.done = true ↔ s.phase = .done)
    ∧ s.result = if s.phase = .done then some s.count else none

/-! ### The whole machine -/

/-- R91: the only control transfers are those of the phase graph; `START` is the one way out of a rest phase. -/
def Obligations.ControlFollowsThePhaseGraph : Prop :=
  ∀ s t : State, step s = .next t → s.port.rst = false →
    if s.busy = false ∧ s.port.start = true then t.phase = .search else Phase.mayGo s.phase t.phase

/-- R41: no step and no instruction stores to the buffer: every bit reads after as before. -/
def Obligations.TheBufferIsNeverWritten : Prop :=
  (∀ s t : State, step s = .next t →
    t.mem = s.mem ∧ t.rowLen = s.rowLen ∧ ∀ a, t.readBit a = s.readBit a)
  ∧ ∀ (i : Instr) (s t : State), exec i s = .next t →
    t.mem = s.mem ∧ t.rowLen = s.rowLen ∧ t.inputs = s.inputs ∧ ∀ a, t.readBit a = s.readBit a

/-- R166: with a latched length that the row has, no operation stops the machine. -/
def Obligations.NoStepGoesWrong : Prop :=
  ∀ s : State, s.nbits ≤ s.rowLen → ∃ t, step s = .next t

/-- The state after reset meets the invariant, and the host has broken no duty yet. -/
def Obligations.ResetMeetsTheInvariant : Prop := State.reset.Inv ∧ State.reset.hostOk

/-- R34 and what its clauses rest on: every step of a machine whose host keeps its duties keeps the invariant. -/
def Obligations.EveryStepKeepsTheInvariant : Prop :=
  ∀ s t : State, s.Inv → s.hostOk → step s = .next t → t.Inv ∧ t.hostOk

/-- R104, R107: every position register and `count` hold values that fit in `W` bits, and `count` is at most
`⌊(nbits - 136) / 8⌋ + 1`, and 0 below 136 bits. -/
def Obligations.StoredValuesFitInTheirWidth : Prop :=
  ∀ s : State, s.Inv → s.hostOk →
    s.nbits < 2 ^ Config.W ∧ s.cursor < 2 ^ Config.W ∧ s.mpos < 2 ^ Config.W ∧ s.dcur < 2 ^ Config.W
    ∧ s.count < 2 ^ Config.W ∧ s.ndec < 2 ^ 7
    ∧ (136 ≤ s.nbits → s.count ≤ (s.nbits - 136) / 8 + 1) ∧ (s.nbits < 136 → s.count = 0)

/-- R13: within one invocation the scan cursor never decreases and never passes `nbits`. -/
def Obligations.CursorNeverDecreases : Prop :=
  ∀ s t : State, s.Inv → step s = .next t → s.port.rst = false → ¬ (s.busy = false ∧ s.port.start = true) →
    s.cursor ≤ t.cursor ∧ t.cursor ≤ t.nbits ∧ t.nbits = s.nbits

/-- R105, R190: every invocation reaches `DONE`, within ten steps a candidate and four more; until then the core is
busy. -/
def Obligations.EveryInvocationReachesDone : Prop :=
  ∀ s : State, s.busy = false → s.port.start = true → s.hostOk →
    ∃ k t, 0 < k ∧ k ≤ 14 + 10 * ((s.port.nbits - 136) / 8) ∧ runs k s = .next t ∧ t.phase = .done
      ∧ ∀ j u, 0 < j → j < k → runs j s = .next u → u.busy = true

/-- R108: with fewer than 136 bits the sequence of phases after `START` is `SEARCH, FINISH, DONE` or
`SEARCH, GUARD, FINISH, DONE`; no record, no decode attempt. -/
def Obligations.ShortBuffersMakeNoDecodeAttempt : Prop :=
  ∀ s : State, s.busy = false → s.port.start = true → s.hostOk → s.port.nbits < 136 →
    ∃ s1 s2 s3, runs 1 s = .next s1 ∧ runs 2 s = .next s2 ∧ runs 3 s = .next s3 ∧ s1.phase = .search
      ∧ ((s2.phase = .finish ∧ s3.phase = .done ∧ s3.count = 0 ∧ s3.sink = s.sink)
        ∨ (s2.phase = .guard ∧ s3.phase = .finish
            ∧ ∃ s4, runs 4 s = .next s4 ∧ s4.phase = .done ∧ s4.count = 0 ∧ s4.sink = s.sink))

/-- R103, R107 (its sharper bound): within one invocation the candidates that are emitted lie 130 bits or more apart,
in increasing order of `mpos`, so that `count` is at most `⌊(nbits - 138) / 130⌋ + 1`, and 0 below 138 bits. -/
def Obligations.EmittedFramesLieFarApart : Prop :=
  ∀ (s : State) (k : Nat) (t : State), s.busy = false → s.port.start = true → s.port.nbits ≤ s.rowLen →
    (∀ p ∈ s.inputs, p.rst = false) → 0 < k → runs k s = .next t →
    (∀ j u, 0 < j → j < k → runs j s = .next u → u.busy = true) →
    (138 ≤ s.port.nbits → t.count ≤ (s.port.nbits - 138) / 130 + 1)
      ∧ (s.port.nbits < 138 → t.count = 0)
      ∧ ∀ j u, 0 < j → j < k → runs j s = .next u → u.phase = .emit → t.phase = .emit → u.mpos + 130 ≤ t.mpos

/-- R7: from `START` on, the machine hands the sink exactly the records of `Run(buf, nbits)`, in order, reaches
`DONE`, and `count` is their number. -/
def Obligations.InvocationComputesRun : Prop :=
  ∀ s : State, s.busy = false → s.port.start = true → s.hostOk →
    ∃ k t, 0 < k ∧ runs k s = .next t ∧ t.phase = .done
      ∧ (∀ j u, 0 < j → j < k → runs j s = .next u → u.busy = true)
      ∧ t.sink = s.sink ++ refRun Config.mcOne Config.resumeAt (Memory.bit s.mem) s.port.nbits
      ∧ t.count = (refRun Config.mcOne Config.resumeAt (Memory.bit s.mem) s.port.nbits).length

/-- R32: nothing of what the registers held before an invocation reaches it: two cores at rest that see the same
buffer and the same ports, `start` raised, go through the same states and hand over the same records. -/
def Obligations.InvocationsShareNoState : Prop :=
  ∀ s u : State, s.busy = false → u.busy = false → s.mem = u.mem → s.rowLen = u.rowLen → s.inputs = u.inputs →
    s.port.start = true →
    ∀ k t, 0 < k → runs k s = .next t →
      ∃ v, runs k u = .next v ∧ v.bare = t.bare ∧ v.inputs = t.inputs
        ∧ ∃ r, t.sink = s.sink ++ r ∧ v.sink = u.sink ++ r

/-- R65, R143 (the source's round trip): from `SKIP` with the row holding at `mpos` the frame of a payload whose
checksum is right, seven steps decode that payload, hand over its record, count it and come to `RESUME`. -/
def Obligations.AFrameIsAccepted : Prop :=
  ∀ (s : State) (P : Payload), s.phase = .skip → s.mpos + 138 ≤ s.nbits → s.holdsFrame s.mpos P →
    crcOk P = true → (∀ p ∈ s.inputs, p.rst = false) →
    ∃ t, runs 7 s = .next t ∧ t.phase = .resume ∧ t.P = P ∧ t.cursor = s.mpos + 8 ∧ t.count = s.count + 1
      ∧ t.sink = s.sink ++ [(extractRecord P).toSink]

/-- The converse (R115, R120, R126): from `SKIP` at an occurrence of the preamble, a record is handed over within
seven steps only if the row holds there the whole frame of a payload whose checksum is right, and it is that
payload's record. -/
def Obligations.OnlyFramesAreAccepted : Prop :=
  ∀ s t : State, s.phase = .skip → s.occursAt s.mpos → runs 7 s = .next t → t.sink ≠ s.sink →
    ∃ P : Payload, s.holdsFrame s.mpos P ∧ crcOk P = true ∧ t.sink = s.sink ++ [(extractRecord P).toSink]

/-- R123: with the decided symbol mapping a frame ends in three equal raw bits. -/
def Obligations.FrameEndsInThreeEqualBits : Prop :=
  ∀ P : Payload, (frameBits .pair01 P).length = 138
    ∧ (frameBits .pair01 P)[135]? = some (pbit P 63)
    ∧ (frameBits .pair01 P)[136]? = some (pbit P 63)
    ∧ (frameBits .pair01 P)[137]? = some (pbit P 63)
end

