-- ==== Sys2Proof/Laws/Checksum.lean ====
section
/-! SUPPORT. The checksum: linear over XOR, shift by shift (R128 (c)), and taken in byte by byte (R125 (c)). -/

namespace Sys2Proof.Machine

@[simp] theorem crcShift_zero : crcShift 0#8 = 0#8 := by decide

/-- One shift is linear. -/
theorem crcShift_xor (a b : Byte) : crcShift (a ^^^ b) = crcShift a ^^^ crcShift b := by
  unfold crcShift
  rw [BitVec.getLsbD_xor, BitVec.ushiftRight_xor_distrib]
  refine BitVec.eq_of_getLsbD_eq fun i _ => ?_
  cases a.getLsbD 0 <;> cases b.getLsbD 0 <;> simp only [Bool.xor_false, Bool.xor_true, Bool.not_true, Bool.not_false,
    if_true, Bool.false_eq_true, if_false, BitVec.getLsbD_xor]
  all_goals cases (a >>> 1).getLsbD i <;> cases (b >>> 1).getLsbD i <;> simp

/-- `n` shifts are linear. -/
theorem crcShifts_xor (n : Nat) (a b : Byte) : crcShifts n (a ^^^ b) = crcShifts n a ^^^ crcShifts n b := by
  induction n generalizing a b with
  | zero => rfl
  | succ n ih => unfold crcShifts; rw [crcShift_xor, ih]

/-- A byte taken in is eight shifts of the register XORed with it (R124). -/
theorem crcByte_eq (r m : Byte) : crcByte r m = crcShifts 8 r ^^^ crcShifts 8 m := by
  unfold crcByte; rw [crcShifts_xor]

@[simp] theorem crc8_nil : crc8 [] = 0#8 := rfl

/-- A message with one more byte (R124). -/
theorem crc8_snoc (m : List Byte) (b : Byte) : crc8 (m ++ [b]) = crcByte (crc8 m) b := by
  simp [crc8]

end Sys2Proof.Machine
end

