-- ==== Sys2Proof/Laws/Decode.lean ====
section
/-! SUPPORT. The frame's layout in numbers (R64). The phase codes: each phase has its own code, and a code that names a phase decodes to its operation. -/

namespace Sys2Proof

@[simp] theorem phaseOfCode_code (p : Phase) : phaseOfCode (Phase.code p) = some p := by
  cases p <;> rfl

@[simp] theorem decodePhase4_code (p : Phase) : decodePhase4 (Phase.code p) = .ok (phaseInstr p) := by
  cases p <;> rfl

/-- The word of a frame, its bytes at the places of R64's table. -/
theorem encode_frame (mc : McOne) (u : BitVec 24) (f t d x c : Byte) :
    encode mc (.frame u f t d x c) = (.frame64, u.toNat * 2 ^ 40 + f.toNat * 2 ^ 32 + t.toNat * 2 ^ 24
      + d.toNat * 2 ^ 16 + x.toNat * 2 ^ 8 + c.toNat) := by
  simp [encode]

/-- The fields of a 64-bit value, at the bits of R64's table. -/
theorem decodeFrame64_eq (w : BitVec 64) : decodeFrame64 w = .frame (w.extractLsb' 40 24) (w.extractLsb' 32 8)
    (w.extractLsb' 24 8) (w.extractLsb' 16 8) (w.extractLsb' 8 8) (w.extractLsb' 0 8) := rfl

/-- A code names the phase whose code it is (R12). -/
theorem phaseOfCode_eq_some {w : BitVec 4} {p : Phase} : phaseOfCode w = some p ↔ w = Phase.code p := by
  constructor
  · revert w; cases p <;> decide
  · rintro rfl; exact phaseOfCode_code p

end Sys2Proof
end

