-- ==== Sys2Proof/Laws/Memory.lean ====
section
/-! SUPPORT. The laws of the buffer: a byte and a bit read after a write, the canonical form kept by every memory
operation, and what a group of bit reads answers. -/

namespace Sys2Proof.Machine

/-! ### Bytes -/

@[simp] theorem read_nil (a : Nat) : Memory.read [] a = Memory.unlisted := rfl

theorem read_cons (c : Host.Cell) (m : Memory) (a : Nat) :
    Memory.read (c :: m) a = if c.1 = a then c.2 else Memory.read m a := rfl

/-- A byte below every listed address reads as an unlisted one. -/
theorem read_of_lt {m : Memory} {a : Nat} (h : ∀ c ∈ m, a < c.1) : Memory.read m a = Memory.unlisted := by
  induction m with
  | nil => rfl
  | cons c m ih =>
    have hc := h c (by simp)
    rw [read_cons, if_neg (by omega)]
    exact ih fun d hd => h d (by simp [hd])

/-- Read after write, at the address written and at every other. -/
theorem read_write {m : Memory} (hm : Memory.wf m) (a : Nat) (v : Byte) (b : Nat) :
    Memory.read (Memory.write m a v) b = if a = b then v else Memory.read m b := by
  obtain ⟨hs, hz⟩ := hm
  induction m with
  | nil =>
    unfold Memory.write
    split
    · rename_i h; simp [h]
    · rfl
  | cons c m ih =>
    have hs' := List.pairwise_cons.mp hs
    have hz' : ∀ d ∈ m, d.2 ≠ Memory.unlisted := fun d hd => hz d (by simp [hd])
    unfold Memory.write
    split
    · rename_i hlt
      split
      · rename_i hv
        split
        · rename_i hab
          rw [hv, ← hab]
          refine read_of_lt fun d hd => ?_
          rcases List.mem_cons.mp hd with rfl | hd
          · exact hlt
          · exact lt_trans hlt (hs'.1 d hd)
        · rfl
      · rfl
    · split
      · rename_i heq
        split
        · rename_i hv
          split
          · rename_i hab
            rw [hv]
            exact read_of_lt fun d hd => by have := hs'.1 d hd; omega
          · rename_i hab
            rw [read_cons, if_neg (by omega)]
        · rw [read_cons, read_cons]
          split
          · rfl
          · rw [if_neg (by omega)]
      · rw [read_cons, read_cons, ih hs'.2 hz']
        split
        · rename_i hcb
          rw [if_neg (by omega)]
        · rfl

/-- Every address of a written memory is the address written or one listed before. -/
theorem mem_write {m : Memory} {a : Nat} {v : Byte} {c : Host.Cell} (h : c ∈ Memory.write m a v) :
    c = (a, v) ∧ v ≠ Memory.unlisted ∨ c ∈ m := by
  induction m with
  | nil =>
    unfold Memory.write at h
    split at h
    · simp at h
    · rename_i hv; exact .inl ⟨by simpa using h, hv⟩
  | cons d m ih =>
    unfold Memory.write at h
    split at h
    · split at h
      · exact .inr h
      · rename_i hv
        rcases List.mem_cons.mp h with h | h
        · exact .inl ⟨h, hv⟩
        · exact .inr h
    · split at h
      · split at h
        · exact .inr (by simp [h])
        · rename_i hv
          rcases List.mem_cons.mp h with h | h
          · exact .inl ⟨h, hv⟩
          · exact .inr (by simp [h])
      · rcases List.mem_cons.mp h with h | h
        · exact .inr (by simp [h])
        · rcases ih h with h | h
          · exact .inl h
          · exact .inr (by simp [h])

/-- A write keeps the canonical form. -/
theorem write_wf {m : Memory} (hm : Memory.wf m) (a : Nat) (v : Byte) : Memory.wf (Memory.write m a v) := by
  refine ⟨?_, fun c hc => ?_⟩
  · obtain ⟨hs, -⟩ := hm
    induction m with
    | nil => unfold Memory.write; split <;> simp
    | cons c m ih =>
      have hs' := List.pairwise_cons.mp hs
      unfold Memory.write
      split
      · rename_i hlt
        split
        · exact hs
        · refine List.pairwise_cons.mpr ⟨fun d hd => ?_, hs⟩
          rcases List.mem_cons.mp hd with rfl | hd
          · exact hlt
          · exact lt_trans hlt (hs'.1 d hd)
      · split
        · rename_i heq
          split
          · exact hs'.2
          · exact List.pairwise_cons.mpr ⟨fun d hd => by have := hs'.1 d hd; simp only; omega, hs'.2⟩
        · refine List.pairwise_cons.mpr ⟨fun d hd => ?_, ih hs'.2⟩
          rcases mem_write hd with ⟨rfl, -⟩ | hd
          · simp only; omega
          · exact hs'.1 d hd
  · rcases mem_write hc with ⟨rfl, hv⟩ | hc
    · exact hv
    · exact hm.2 c hc

/-! ### Bits -/

theorem byteWithBit_bit (v : Byte) (j : Fin 8) (b : Bool) (i : Fin 8) :
    (byteWithBit v j b).getLsbD (7 - i) = if j = i then b else v.getLsbD (7 - i) := by
  revert v; revert i j b; decide +kernel

/-- A bit read after a bit write, at the bit written and at every other. -/
theorem bit_setBit {m : Memory} (hm : Memory.wf m) (i : Nat) (b : Bool) (j : Nat) :
    Memory.bit (Memory.setBit m i b) j = if i = j then b else Memory.bit m j := by
  unfold Memory.bit Memory.setBit
  rw [read_write hm]
  by_cases hd : i / 8 = j / 8
  · rw [if_pos hd, hd]
    have := byteWithBit_bit (Memory.read m (j / 8)) ⟨i % 8, by omega⟩ b ⟨j % 8, by omega⟩
    simp only [Fin.mk.injEq] at this
    rw [this]
    by_cases hij : i = j
    · simp [hij]
    · rw [if_neg (by omega), if_neg hij]
  · rw [if_neg hd, if_neg (by rintro rfl; exact hd rfl)]

/-- A bit write keeps the canonical form. -/
theorem setBit_wf {m : Memory} (hm : Memory.wf m) (i : Nat) (b : Bool) : Memory.wf (Memory.setBit m i b) :=
  write_wf hm _ _

/-! ### Reads through the row -/

theorem readBit_of_lt {s : State} {i : Nat} (h : i < s.rowLen) : s.readBit i = some (Memory.bit s.mem i) := by
  simp [State.readBit, h]

theorem readBit_of_ge {s : State} {i : Nat} (h : s.rowLen ≤ i) : s.readBit i = none := by
  simp [State.readBit]; omega

theorem readBit_eq_some {s : State} {i : Nat} {b : Bool} :
    s.readBit i = some b ↔ i < s.rowLen ∧ Memory.bit s.mem i = b := by
  simp [State.readBit]

/-- All a group of bit reads answers: the bits, `Bit(addr)` most significant, exactly when all of them exist. -/
theorem memRead_eq_some {s : State} {addr n : Nat} {w : BitVec n} :
    s.memRead addr n = some w ↔
      (0 < n → addr + n ≤ s.rowLen) ∧ ∀ j, j < n → w.getLsbD (n - 1 - j) = Memory.bit s.mem (addr + j) := by
  induction n with
  | zero => simp [State.memRead, BitVec.eq_nil w]
  | succ n ih =>
    unfold State.memRead
    constructor
    · intro h
      split at h
      · rename_i hi b hhi hb
        obtain ⟨hlt, hb⟩ := readBit_eq_some.mp hb
        obtain ⟨-, hbits⟩ := ih.mp hhi
        refine ⟨fun _ => by omega, fun j hj => ?_⟩
        rw [← Option.some.inj h, BitVec.getLsbD_concat]
        by_cases hjn : j = n
        · subst hjn; simp [hb]
        · rw [if_neg (by omega), show n + 1 - 1 - j - 1 = n - 1 - j by omega, hbits j (by omega)]
      · exact absurd h (by simp)
    · rintro ⟨hle, hbits⟩
      have hle := hle (by omega)
      have hhi : s.memRead addr n = some (w.extractLsb' 1 n) := by
        refine ih.mpr ⟨fun _ => by omega, fun j hj => ?_⟩
        rw [BitVec.getLsbD_extractLsb', ← hbits j (by omega)]
        simp [show n - 1 - j < n by omega, show 1 + (n - 1 - j) = n + 1 - 1 - j by omega]
      rw [hhi, readBit_of_lt (by omega)]
      simp only [Option.some.injEq]
      refine BitVec.eq_of_getLsbD_eq fun i hi => ?_
      rw [BitVec.getLsbD_concat]
      by_cases h0 : i = 0
      · subst h0; have := hbits n (by omega); simpa using this.symm
      · rw [if_neg h0, BitVec.getLsbD_extractLsb']
        simp [show i - 1 < n by omega, show 1 + (i - 1) = i by omega]

/-- A group of bit reads answers nothing exactly when one of its bits is outside the row. -/
theorem memRead_eq_none {s : State} {addr n : Nat} :
    s.memRead addr n = none ↔ 0 < n ∧ s.rowLen < addr + n := by
  induction n with
  | zero => simp [State.memRead]
  | succ n ih =>
    unfold State.memRead
    by_cases h : addr + (n + 1) ≤ s.rowLen
    · have h1 : s.memRead addr n ≠ none := fun hn => by have := ih.mp hn; omega
      obtain ⟨hi, hhi⟩ := Option.ne_none_iff_exists'.mp h1
      rw [hhi, readBit_of_lt (by omega)]
      simp; omega
    · refine ⟨fun _ => ⟨by omega, by omega⟩, fun _ => ?_⟩
      rw [readBit_of_ge (show s.rowLen ≤ addr + n by omega)]
      split
      · rename_i hb; exact absurd hb (by simp)
      · rfl

/-- A pair read where both bits exist. -/
theorem memRead_pair {s : State} {d : Nat} (h : d + 2 ≤ s.rowLen) :
    ∃ w : BitVec 2, s.memRead d 2 = some w ∧ w.getLsbD 1 = Memory.bit s.mem d
      ∧ w.getLsbD 0 = Memory.bit s.mem (d + 1) := by
  have hne : s.memRead d 2 ≠ none := fun hn => by have := memRead_eq_none.mp hn; omega
  obtain ⟨w, hw⟩ := Option.ne_none_iff_exists'.mp hne
  obtain ⟨-, hb⟩ := memRead_eq_some.mp hw
  exact ⟨w, hw, by simpa using hb 0 (by omega), by simpa using hb 1 (by omega)⟩

/-- The reads of two states with the same row are the same. -/
theorem memRead_congr {s t : State} (hm : t.mem = s.mem) (hr : t.rowLen = s.rowLen) (addr n : Nat) :
    t.memRead addr n = s.memRead addr n := by
  induction n with
  | zero => rfl
  | succ n ih => unfold State.memRead; rw [ih]; simp [State.readBit, hm, hr]

end Sys2Proof.Machine
end

