-- ==== Sys2Proof/Laws/Payload.lean ====
section
/-! SUPPORT. The payload registers bit by bit: what ORing a decoded bit in does, and that the 64 decoded bits
determine the payload. -/

namespace Sys2Proof.Machine

theorem pbyte_eq (P : Payload) {i : Nat} (h : i < 8) : pbyte P i = P[i] := by
  simp [pbyte, h]

@[simp] theorem pbyte_pzero (i : Nat) : pbyte pzero i = 0#8 := by
  by_cases h : i < 8 <;> simp [pbyte, pzero, h]

@[simp] theorem pbit_pzero (k : Nat) : pbit pzero k = false := by simp [pbit]

theorem pbyte_porBit (P : Payload) (k : Nat) (hk : k < 64) (b : Bool) (i : Nat) :
    pbyte (porBit P k b) i =
      if k / 8 = i then pbyte P i ||| ((BitVec.ofBool b).setWidth 8 <<< (7 - k % 8)) else pbyte P i := by
  unfold porBit
  rw [pbyte, Vector.getElem?_setIfInBounds]
  split
  · rename_i h
    rw [if_pos (by rw [Config.payloadBytes]; omega), h]; rfl
  · rfl

theorem orMask_bit (v : Byte) (j : Fin 8) (b : Bool) (i : Fin 8) :
    (v ||| ((BitVec.ofBool b).setWidth 8 <<< (7 - j.val))).getLsbD (7 - i.val)
      = (v.getLsbD (7 - i.val) || (decide (j = i) && b)) := by
  revert v; revert i j b; decide +kernel

/-- Decoded bit `j` after decoded bit `k` has been ORed in (R110). -/
theorem pbit_porBit (P : Payload) {k : Nat} (hk : k < 64) (b : Bool) (j : Nat) :
    pbit (porBit P k b) j = (pbit P j || (decide (k = j) && b)) := by
  unfold pbit
  rw [pbyte_porBit P k hk b]
  by_cases hd : k / 8 = j / 8
  · rw [if_pos hd, orMask_bit _ ⟨k % 8, by omega⟩ b ⟨j % 8, by omega⟩]
    simp only [Fin.mk.injEq]
    congr 2
    have : (k % 8 = j % 8) ↔ k = j := by omega
    simp [this]
  · rw [if_neg hd]
    have : k ≠ j := by rintro rfl; exact hd rfl
    simp [this]

/-- A byte is determined by its eight bits, most significant first. -/
theorem byte_ext {v w : Byte} (h : ∀ j, j < 8 → v.getLsbD (7 - j) = w.getLsbD (7 - j)) : v = w := by
  refine BitVec.eq_of_getLsbD_eq fun i hi => ?_
  have := h (7 - i) (by omega)
  rwa [show 7 - (7 - i) = i by omega] at this

/-- The payload is determined by its 64 decoded bits (R5 (d), R112). -/
theorem payload_ext {P Q : Payload} (h : ∀ k, k < 64 → pbit P k = pbit Q k) : P = Q := by
  refine Vector.ext fun i (hi : i < 8) => ?_
  rw [← pbyte_eq P hi, ← pbyte_eq Q hi]
  refine byte_ext fun j hj => ?_
  have := h (8 * i + j) (by omega)
  unfold pbit at this
  rwa [show (8 * i + j) / 8 = i by omega, show (8 * i + j) % 8 = j by omega] at this

/-- The last decoded bit is bit 0 of the eighth byte (R121). -/
theorem lastBit_eq (s : State) : s.lastBit = pbit s.P 63 := rfl

/-- The seven bytes the checksum covers (R129). -/
theorem pdata_eq (P : Payload) :
    pdata P = [pbyte P 0, pbyte P 1, pbyte P 2, pbyte P 3, pbyte P 4, pbyte P 5, pbyte P 6] := by
  refine List.ext_getElem (by simp [pdata]) fun i h1 h2 => ?_
  simp only [List.length_cons, List.length_nil] at h2
  have : i < 8 := by omega
  rw [show (pdata P)[i] = pbyte P i by rw [pbyte_eq P this]; simp [pdata]]
  interval_cases i <;> rfl

end Sys2Proof.Machine
end

