-- ==== Sys2Proof/Laws/State.lean ====
section
/-! SUPPORT. What each named update of the state leaves in each field, so that no proof unfolds a record update. -/

namespace Sys2Proof.Machine

/-! ### `State.goto` -/

@[simp] theorem goto_phase (s : State) (p : Phase) : (s.goto p).phase = p := rfl

@[simp] theorem goto_nbits (s : State) (p : Phase) : (s.goto p).nbits = s.nbits := rfl

@[simp] theorem goto_cursor (s : State) (p : Phase) : (s.goto p).cursor = s.cursor := rfl

@[simp] theorem goto_mpos (s : State) (p : Phase) : (s.goto p).mpos = s.mpos := rfl

@[simp] theorem goto_found (s : State) (p : Phase) : (s.goto p).found = s.found := rfl

@[simp] theorem goto_dcur (s : State) (p : Phase) : (s.goto p).dcur = s.dcur := rfl

@[simp] theorem goto_ndec (s : State) (p : Phase) : (s.goto p).ndec = s.ndec := rfl

@[simp] theorem goto_P (s : State) (p : Phase) : (s.goto p).P = s.P := rfl

@[simp] theorem goto_crc (s : State) (p : Phase) : (s.goto p).crc = s.crc := rfl

@[simp] theorem goto_count (s : State) (p : Phase) : (s.goto p).count = s.count := rfl

@[simp] theorem goto_record (s : State) (p : Phase) : (s.goto p).record = s.record := rfl

@[simp] theorem goto_mem (s : State) (p : Phase) : (s.goto p).mem = s.mem := rfl

@[simp] theorem goto_rowLen (s : State) (p : Phase) : (s.goto p).rowLen = s.rowLen := rfl

@[simp] theorem goto_inputs (s : State) (p : Phase) : (s.goto p).inputs = s.inputs := rfl

@[simp] theorem goto_sink (s : State) (p : Phase) : (s.goto p).sink = s.sink := rfl

/-! ### `State.raiseReject` -/

@[simp] theorem raiseReject_phase (s : State) (c : RejectCause) : (s.raiseReject c).phase = Phase.resume := rfl

@[simp] theorem raiseReject_nbits (s : State) (c : RejectCause) : (s.raiseReject c).nbits = s.nbits := rfl

@[simp] theorem raiseReject_cursor (s : State) (c : RejectCause) : (s.raiseReject c).cursor = s.cursor := rfl

@[simp] theorem raiseReject_mpos (s : State) (c : RejectCause) : (s.raiseReject c).mpos = s.mpos := rfl

@[simp] theorem raiseReject_found (s : State) (c : RejectCause) : (s.raiseReject c).found = s.found := rfl

@[simp] theorem raiseReject_dcur (s : State) (c : RejectCause) : (s.raiseReject c).dcur = s.dcur := rfl

@[simp] theorem raiseReject_ndec (s : State) (c : RejectCause) : (s.raiseReject c).ndec = s.ndec := rfl

@[simp] theorem raiseReject_P (s : State) (c : RejectCause) : (s.raiseReject c).P = s.P := rfl

@[simp] theorem raiseReject_crc (s : State) (c : RejectCause) : (s.raiseReject c).crc = s.crc := rfl

@[simp] theorem raiseReject_count (s : State) (c : RejectCause) : (s.raiseReject c).count = s.count := rfl

@[simp] theorem raiseReject_record (s : State) (c : RejectCause) : (s.raiseReject c).record = s.record := rfl

@[simp] theorem raiseReject_mem (s : State) (c : RejectCause) : (s.raiseReject c).mem = s.mem := rfl

@[simp] theorem raiseReject_rowLen (s : State) (c : RejectCause) : (s.raiseReject c).rowLen = s.rowLen := rfl

@[simp] theorem raiseReject_inputs (s : State) (c : RejectCause) : (s.raiseReject c).inputs = s.inputs := rfl

@[simp] theorem raiseReject_sink (s : State) (c : RejectCause) : (s.raiseReject c).sink = s.sink := rfl

/-! ### `State.raiseTerminal` -/

@[simp] theorem raiseTerminal_phase (s : State) (c : TerminalCause) : (s.raiseTerminal c).phase = Phase.finish := rfl

@[simp] theorem raiseTerminal_nbits (s : State) (c : TerminalCause) : (s.raiseTerminal c).nbits = s.nbits := rfl

@[simp] theorem raiseTerminal_cursor (s : State) (c : TerminalCause) : (s.raiseTerminal c).cursor = s.cursor := rfl

@[simp] theorem raiseTerminal_mpos (s : State) (c : TerminalCause) : (s.raiseTerminal c).mpos = s.mpos := rfl

@[simp] theorem raiseTerminal_found (s : State) (c : TerminalCause) : (s.raiseTerminal c).found = s.found := rfl

@[simp] theorem raiseTerminal_dcur (s : State) (c : TerminalCause) : (s.raiseTerminal c).dcur = s.dcur := rfl

@[simp] theorem raiseTerminal_ndec (s : State) (c : TerminalCause) : (s.raiseTerminal c).ndec = s.ndec := rfl

@[simp] theorem raiseTerminal_P (s : State) (c : TerminalCause) : (s.raiseTerminal c).P = s.P := rfl

@[simp] theorem raiseTerminal_crc (s : State) (c : TerminalCause) : (s.raiseTerminal c).crc = s.crc := rfl

@[simp] theorem raiseTerminal_count (s : State) (c : TerminalCause) : (s.raiseTerminal c).count = s.count := rfl

@[simp] theorem raiseTerminal_record (s : State) (c : TerminalCause) : (s.raiseTerminal c).record = s.record := rfl

@[simp] theorem raiseTerminal_mem (s : State) (c : TerminalCause) : (s.raiseTerminal c).mem = s.mem := rfl

@[simp] theorem raiseTerminal_rowLen (s : State) (c : TerminalCause) : (s.raiseTerminal c).rowLen = s.rowLen := rfl

@[simp] theorem raiseTerminal_inputs (s : State) (c : TerminalCause) : (s.raiseTerminal c).inputs = s.inputs := rfl

@[simp] theorem raiseTerminal_sink (s : State) (c : TerminalCause) : (s.raiseTerminal c).sink = s.sink := rfl

/-! ### `State.returnToScan` -/

@[simp] theorem returnToScan_phase (s : State) (r : ResumeAt) : (s.returnToScan r).phase = Phase.search := rfl

@[simp] theorem returnToScan_nbits (s : State) (r : ResumeAt) : (s.returnToScan r).nbits = s.nbits := rfl

@[simp] theorem returnToScan_cursor (s : State) (r : ResumeAt) : (s.returnToScan r).cursor = resumeCursor r s.cursor s.dcur := rfl

@[simp] theorem returnToScan_mpos (s : State) (r : ResumeAt) : (s.returnToScan r).mpos = s.mpos := rfl

@[simp] theorem returnToScan_found (s : State) (r : ResumeAt) : (s.returnToScan r).found = s.found := rfl

@[simp] theorem returnToScan_dcur (s : State) (r : ResumeAt) : (s.returnToScan r).dcur = s.dcur := rfl

@[simp] theorem returnToScan_ndec (s : State) (r : ResumeAt) : (s.returnToScan r).ndec = s.ndec := rfl

@[simp] theorem returnToScan_P (s : State) (r : ResumeAt) : (s.returnToScan r).P = s.P := rfl

@[simp] theorem returnToScan_crc (s : State) (r : ResumeAt) : (s.returnToScan r).crc = s.crc := rfl

@[simp] theorem returnToScan_count (s : State) (r : ResumeAt) : (s.returnToScan r).count = s.count := rfl

@[simp] theorem returnToScan_record (s : State) (r : ResumeAt) : (s.returnToScan r).record = s.record := rfl

@[simp] theorem returnToScan_mem (s : State) (r : ResumeAt) : (s.returnToScan r).mem = s.mem := rfl

@[simp] theorem returnToScan_rowLen (s : State) (r : ResumeAt) : (s.returnToScan r).rowLen = s.rowLen := rfl

@[simp] theorem returnToScan_inputs (s : State) (r : ResumeAt) : (s.returnToScan r).inputs = s.inputs := rfl

@[simp] theorem returnToScan_sink (s : State) (r : ResumeAt) : (s.returnToScan r).sink = s.sink := rfl

/-! ### `State.cleared` -/

@[simp] theorem cleared_phase (s : State) (p : Phase) (n : Nat) : (s.cleared p n).phase = p := rfl

@[simp] theorem cleared_nbits (s : State) (p : Phase) (n : Nat) : (s.cleared p n).nbits = n := rfl

@[simp] theorem cleared_cursor (s : State) (p : Phase) (n : Nat) : (s.cleared p n).cursor = 0 := rfl

@[simp] theorem cleared_mpos (s : State) (p : Phase) (n : Nat) : (s.cleared p n).mpos = 0 := rfl

@[simp] theorem cleared_found (s : State) (p : Phase) (n : Nat) : (s.cleared p n).found = false := rfl

@[simp] theorem cleared_dcur (s : State) (p : Phase) (n : Nat) : (s.cleared p n).dcur = 0 := rfl

@[simp] theorem cleared_ndec (s : State) (p : Phase) (n : Nat) : (s.cleared p n).ndec = 0 := rfl

@[simp] theorem cleared_P (s : State) (p : Phase) (n : Nat) : (s.cleared p n).P = Vector.replicate 8 0#8 := rfl

@[simp] theorem cleared_crc (s : State) (p : Phase) (n : Nat) : (s.cleared p n).crc = 0#8 := rfl

@[simp] theorem cleared_count (s : State) (p : Phase) (n : Nat) : (s.cleared p n).count = 0 := rfl

@[simp] theorem cleared_record (s : State) (p : Phase) (n : Nat) : (s.cleared p n).record = RecordReg.zero := rfl

@[simp] theorem cleared_mem (s : State) (p : Phase) (n : Nat) : (s.cleared p n).mem = s.mem := rfl

@[simp] theorem cleared_rowLen (s : State) (p : Phase) (n : Nat) : (s.cleared p n).rowLen = s.rowLen := rfl

@[simp] theorem cleared_inputs (s : State) (p : Phase) (n : Nat) : (s.cleared p n).inputs = s.inputs := rfl

@[simp] theorem cleared_sink (s : State) (p : Phase) (n : Nat) : (s.cleared p n).sink = s.sink := rfl

/-! ### `State.hardReset` -/

@[simp] theorem hardReset_phase (s : State) : (s.hardReset).phase = Phase.idle := rfl

@[simp] theorem hardReset_nbits (s : State) : (s.hardReset).nbits = 0 := rfl

@[simp] theorem hardReset_cursor (s : State) : (s.hardReset).cursor = 0 := rfl

@[simp] theorem hardReset_mpos (s : State) : (s.hardReset).mpos = 0 := rfl

@[simp] theorem hardReset_found (s : State) : (s.hardReset).found = false := rfl

@[simp] theorem hardReset_dcur (s : State) : (s.hardReset).dcur = 0 := rfl

@[simp] theorem hardReset_ndec (s : State) : (s.hardReset).ndec = 0 := rfl

@[simp] theorem hardReset_P (s : State) : (s.hardReset).P = Vector.replicate 8 0#8 := rfl

@[simp] theorem hardReset_crc (s : State) : (s.hardReset).crc = 0#8 := rfl

@[simp] theorem hardReset_count (s : State) : (s.hardReset).count = 0 := rfl

@[simp] theorem hardReset_record (s : State) : (s.hardReset).record = RecordReg.zero := rfl

@[simp] theorem hardReset_mem (s : State) : (s.hardReset).mem = s.mem := rfl

@[simp] theorem hardReset_rowLen (s : State) : (s.hardReset).rowLen = s.rowLen := rfl

@[simp] theorem hardReset_inputs (s : State) : (s.hardReset).inputs = s.inputs := rfl

@[simp] theorem hardReset_sink (s : State) : (s.hardReset).sink = s.sink := rfl

/-! ### `State.startInvocation` -/

@[simp] theorem startInvocation_phase (s : State) (n : Nat) : (s.startInvocation n).phase = Phase.search := rfl

@[simp] theorem startInvocation_nbits (s : State) (n : Nat) : (s.startInvocation n).nbits = n := rfl

@[simp] theorem startInvocation_cursor (s : State) (n : Nat) : (s.startInvocation n).cursor = 0 := rfl

@[simp] theorem startInvocation_mpos (s : State) (n : Nat) : (s.startInvocation n).mpos = 0 := rfl

@[simp] theorem startInvocation_found (s : State) (n : Nat) : (s.startInvocation n).found = false := rfl

@[simp] theorem startInvocation_dcur (s : State) (n : Nat) : (s.startInvocation n).dcur = 0 := rfl

@[simp] theorem startInvocation_ndec (s : State) (n : Nat) : (s.startInvocation n).ndec = 0 := rfl

@[simp] theorem startInvocation_P (s : State) (n : Nat) : (s.startInvocation n).P = Vector.replicate 8 0#8 := rfl

@[simp] theorem startInvocation_crc (s : State) (n : Nat) : (s.startInvocation n).crc = 0#8 := rfl

@[simp] theorem startInvocation_count (s : State) (n : Nat) : (s.startInvocation n).count = 0 := rfl

@[simp] theorem startInvocation_record (s : State) (n : Nat) : (s.startInvocation n).record = RecordReg.zero := rfl

@[simp] theorem startInvocation_mem (s : State) (n : Nat) : (s.startInvocation n).mem = s.mem := rfl

@[simp] theorem startInvocation_rowLen (s : State) (n : Nat) : (s.startInvocation n).rowLen = s.rowLen := rfl

@[simp] theorem startInvocation_inputs (s : State) (n : Nat) : (s.startInvocation n).inputs = s.inputs := rfl

@[simp] theorem startInvocation_sink (s : State) (n : Nat) : (s.startInvocation n).sink = s.sink := rfl

/-! ### `State.popPort` -/

@[simp] theorem popPort_phase (s : State) : (s.popPort).phase = s.phase := rfl

@[simp] theorem popPort_nbits (s : State) : (s.popPort).nbits = s.nbits := rfl

@[simp] theorem popPort_cursor (s : State) : (s.popPort).cursor = s.cursor := rfl

@[simp] theorem popPort_mpos (s : State) : (s.popPort).mpos = s.mpos := rfl

@[simp] theorem popPort_found (s : State) : (s.popPort).found = s.found := rfl

@[simp] theorem popPort_dcur (s : State) : (s.popPort).dcur = s.dcur := rfl

@[simp] theorem popPort_ndec (s : State) : (s.popPort).ndec = s.ndec := rfl

@[simp] theorem popPort_P (s : State) : (s.popPort).P = s.P := rfl

@[simp] theorem popPort_crc (s : State) : (s.popPort).crc = s.crc := rfl

@[simp] theorem popPort_count (s : State) : (s.popPort).count = s.count := rfl

@[simp] theorem popPort_record (s : State) : (s.popPort).record = s.record := rfl

@[simp] theorem popPort_mem (s : State) : (s.popPort).mem = s.mem := rfl

@[simp] theorem popPort_rowLen (s : State) : (s.popPort).rowLen = s.rowLen := rfl

@[simp] theorem popPort_inputs (s : State) : (s.popPort).inputs = s.inputs.tail := rfl

@[simp] theorem popPort_sink (s : State) : (s.popPort).sink = s.sink := rfl

/-! ### `State.emitRecord` -/

@[simp] theorem emitRecord_phase (s : State) : (s.emitRecord).phase = s.phase := rfl

@[simp] theorem emitRecord_nbits (s : State) : (s.emitRecord).nbits = s.nbits := rfl

@[simp] theorem emitRecord_cursor (s : State) : (s.emitRecord).cursor = s.cursor := rfl

@[simp] theorem emitRecord_mpos (s : State) : (s.emitRecord).mpos = s.mpos := rfl

@[simp] theorem emitRecord_found (s : State) : (s.emitRecord).found = s.found := rfl

@[simp] theorem emitRecord_dcur (s : State) : (s.emitRecord).dcur = s.dcur := rfl

@[simp] theorem emitRecord_ndec (s : State) : (s.emitRecord).ndec = s.ndec := rfl

@[simp] theorem emitRecord_P (s : State) : (s.emitRecord).P = s.P := rfl

@[simp] theorem emitRecord_crc (s : State) : (s.emitRecord).crc = s.crc := rfl

@[simp] theorem emitRecord_count (s : State) : (s.emitRecord).count = s.count + 1 := rfl

@[simp] theorem emitRecord_record (s : State) : (s.emitRecord).record = s.record := rfl

@[simp] theorem emitRecord_mem (s : State) : (s.emitRecord).mem = s.mem := rfl

@[simp] theorem emitRecord_rowLen (s : State) : (s.emitRecord).rowLen = s.rowLen := rfl

@[simp] theorem emitRecord_inputs (s : State) : (s.emitRecord).inputs = s.inputs := rfl

@[simp] theorem emitRecord_sink (s : State) : (s.emitRecord).sink = s.sink ++ [s.record.toSink] := rfl

/-! ### `State.freshCandidate` -/

@[simp] theorem freshCandidate_phase (s : State) : (s.freshCandidate).phase = s.phase := rfl

@[simp] theorem freshCandidate_nbits (s : State) : (s.freshCandidate).nbits = s.nbits := rfl

@[simp] theorem freshCandidate_cursor (s : State) : (s.freshCandidate).cursor = s.mpos + 8 := rfl

@[simp] theorem freshCandidate_mpos (s : State) : (s.freshCandidate).mpos = s.mpos := rfl

@[simp] theorem freshCandidate_found (s : State) : (s.freshCandidate).found = s.found := rfl

@[simp] theorem freshCandidate_dcur (s : State) : (s.freshCandidate).dcur = s.mpos + 8 := rfl

@[simp] theorem freshCandidate_ndec (s : State) : (s.freshCandidate).ndec = 0 := rfl

@[simp] theorem freshCandidate_P (s : State) : (s.freshCandidate).P = pzero := rfl

@[simp] theorem freshCandidate_crc (s : State) : (s.freshCandidate).crc = s.crc := rfl

@[simp] theorem freshCandidate_count (s : State) : (s.freshCandidate).count = s.count := rfl

@[simp] theorem freshCandidate_record (s : State) : (s.freshCandidate).record = s.record := rfl

@[simp] theorem freshCandidate_mem (s : State) : (s.freshCandidate).mem = s.mem := rfl

@[simp] theorem freshCandidate_rowLen (s : State) : (s.freshCandidate).rowLen = s.rowLen := rfl

@[simp] theorem freshCandidate_inputs (s : State) : (s.freshCandidate).inputs = s.inputs := rfl

@[simp] theorem freshCandidate_sink (s : State) : (s.freshCandidate).sink = s.sink := rfl

/-! ### `State.takeBit` -/

@[simp] theorem takeBit_phase (s : State) (b : Bool) : (s.takeBit b).phase = s.phase := rfl

@[simp] theorem takeBit_nbits (s : State) (b : Bool) : (s.takeBit b).nbits = s.nbits := rfl

@[simp] theorem takeBit_cursor (s : State) (b : Bool) : (s.takeBit b).cursor = s.cursor := rfl

@[simp] theorem takeBit_mpos (s : State) (b : Bool) : (s.takeBit b).mpos = s.mpos := rfl

@[simp] theorem takeBit_found (s : State) (b : Bool) : (s.takeBit b).found = s.found := rfl

@[simp] theorem takeBit_dcur (s : State) (b : Bool) : (s.takeBit b).dcur = s.dcur + 2 := rfl

@[simp] theorem takeBit_ndec (s : State) (b : Bool) : (s.takeBit b).ndec = s.ndec + 1 := rfl

@[simp] theorem takeBit_P (s : State) (b : Bool) : (s.takeBit b).P = porBit s.P s.ndec b := rfl

@[simp] theorem takeBit_crc (s : State) (b : Bool) : (s.takeBit b).crc = s.crc := rfl

@[simp] theorem takeBit_count (s : State) (b : Bool) : (s.takeBit b).count = s.count := rfl

@[simp] theorem takeBit_record (s : State) (b : Bool) : (s.takeBit b).record = s.record := rfl

@[simp] theorem takeBit_mem (s : State) (b : Bool) : (s.takeBit b).mem = s.mem := rfl

@[simp] theorem takeBit_rowLen (s : State) (b : Bool) : (s.takeBit b).rowLen = s.rowLen := rfl

@[simp] theorem takeBit_inputs (s : State) (b : Bool) : (s.takeBit b).inputs = s.inputs := rfl

@[simp] theorem takeBit_sink (s : State) (b : Bool) : (s.takeBit b).sink = s.sink := rfl

/-! ### `State.takeInvalid` -/

@[simp] theorem takeInvalid_phase (s : State) : (s.takeInvalid).phase = s.phase := rfl

@[simp] theorem takeInvalid_nbits (s : State) : (s.takeInvalid).nbits = s.nbits := rfl

@[simp] theorem takeInvalid_cursor (s : State) : (s.takeInvalid).cursor = s.cursor := rfl

@[simp] theorem takeInvalid_mpos (s : State) : (s.takeInvalid).mpos = s.mpos := rfl

@[simp] theorem takeInvalid_found (s : State) : (s.takeInvalid).found = s.found := rfl

@[simp] theorem takeInvalid_dcur (s : State) : (s.takeInvalid).dcur = s.dcur + 2 := rfl

@[simp] theorem takeInvalid_ndec (s : State) : (s.takeInvalid).ndec = s.ndec := rfl

@[simp] theorem takeInvalid_P (s : State) : (s.takeInvalid).P = s.P := rfl

@[simp] theorem takeInvalid_crc (s : State) : (s.takeInvalid).crc = s.crc := rfl

@[simp] theorem takeInvalid_count (s : State) : (s.takeInvalid).count = s.count := rfl

@[simp] theorem takeInvalid_record (s : State) : (s.takeInvalid).record = s.record := rfl

@[simp] theorem takeInvalid_mem (s : State) : (s.takeInvalid).mem = s.mem := rfl

@[simp] theorem takeInvalid_rowLen (s : State) : (s.takeInvalid).rowLen = s.rowLen := rfl

@[simp] theorem takeInvalid_inputs (s : State) : (s.takeInvalid).inputs = s.inputs := rfl

@[simp] theorem takeInvalid_sink (s : State) : (s.takeInvalid).sink = s.sink := rfl

/-! ### `State.takeMatch` -/

@[simp] theorem takeMatch_phase (s : State) (p : Nat) : (s.takeMatch p).phase = Phase.guard := rfl

@[simp] theorem takeMatch_nbits (s : State) (p : Nat) : (s.takeMatch p).nbits = s.nbits := rfl

@[simp] theorem takeMatch_cursor (s : State) (p : Nat) : (s.takeMatch p).cursor = s.cursor := rfl

@[simp] theorem takeMatch_mpos (s : State) (p : Nat) : (s.takeMatch p).mpos = p := rfl

@[simp] theorem takeMatch_found (s : State) (p : Nat) : (s.takeMatch p).found = true := rfl

@[simp] theorem takeMatch_dcur (s : State) (p : Nat) : (s.takeMatch p).dcur = s.dcur := rfl

@[simp] theorem takeMatch_ndec (s : State) (p : Nat) : (s.takeMatch p).ndec = s.ndec := rfl

@[simp] theorem takeMatch_P (s : State) (p : Nat) : (s.takeMatch p).P = s.P := rfl

@[simp] theorem takeMatch_crc (s : State) (p : Nat) : (s.takeMatch p).crc = s.crc := rfl

@[simp] theorem takeMatch_count (s : State) (p : Nat) : (s.takeMatch p).count = s.count := rfl

@[simp] theorem takeMatch_record (s : State) (p : Nat) : (s.takeMatch p).record = s.record := rfl

@[simp] theorem takeMatch_mem (s : State) (p : Nat) : (s.takeMatch p).mem = s.mem := rfl

@[simp] theorem takeMatch_rowLen (s : State) (p : Nat) : (s.takeMatch p).rowLen = s.rowLen := rfl

@[simp] theorem takeMatch_inputs (s : State) (p : Nat) : (s.takeMatch p).inputs = s.inputs := rfl

@[simp] theorem takeMatch_sink (s : State) (p : Nat) : (s.takeMatch p).sink = s.sink := rfl

/-! ### `State.takeNoMatch` -/

@[simp] theorem takeNoMatch_phase (s : State) : (s.takeNoMatch).phase = Phase.finish := rfl

@[simp] theorem takeNoMatch_nbits (s : State) : (s.takeNoMatch).nbits = s.nbits := rfl

@[simp] theorem takeNoMatch_cursor (s : State) : (s.takeNoMatch).cursor = s.cursor := rfl

@[simp] theorem takeNoMatch_mpos (s : State) : (s.takeNoMatch).mpos = s.mpos := rfl

@[simp] theorem takeNoMatch_found (s : State) : (s.takeNoMatch).found = false := rfl

@[simp] theorem takeNoMatch_dcur (s : State) : (s.takeNoMatch).dcur = s.dcur := rfl

@[simp] theorem takeNoMatch_ndec (s : State) : (s.takeNoMatch).ndec = s.ndec := rfl

@[simp] theorem takeNoMatch_P (s : State) : (s.takeNoMatch).P = s.P := rfl

@[simp] theorem takeNoMatch_crc (s : State) : (s.takeNoMatch).crc = s.crc := rfl

@[simp] theorem takeNoMatch_count (s : State) : (s.takeNoMatch).count = s.count := rfl

@[simp] theorem takeNoMatch_record (s : State) : (s.takeNoMatch).record = s.record := rfl

@[simp] theorem takeNoMatch_mem (s : State) : (s.takeNoMatch).mem = s.mem := rfl

@[simp] theorem takeNoMatch_rowLen (s : State) : (s.takeNoMatch).rowLen = s.rowLen := rfl

@[simp] theorem takeNoMatch_inputs (s : State) : (s.takeNoMatch).inputs = s.inputs := rfl

@[simp] theorem takeNoMatch_sink (s : State) : (s.takeNoMatch).sink = s.sink := rfl

/-! ### `State.latchRecord` -/

@[simp] theorem latchRecord_phase (s : State) (r : RecordReg) : (s.latchRecord r).phase = Phase.emit := rfl

@[simp] theorem latchRecord_nbits (s : State) (r : RecordReg) : (s.latchRecord r).nbits = s.nbits := rfl

@[simp] theorem latchRecord_cursor (s : State) (r : RecordReg) : (s.latchRecord r).cursor = s.cursor := rfl

@[simp] theorem latchRecord_mpos (s : State) (r : RecordReg) : (s.latchRecord r).mpos = s.mpos := rfl

@[simp] theorem latchRecord_found (s : State) (r : RecordReg) : (s.latchRecord r).found = s.found := rfl

@[simp] theorem latchRecord_dcur (s : State) (r : RecordReg) : (s.latchRecord r).dcur = s.dcur := rfl

@[simp] theorem latchRecord_ndec (s : State) (r : RecordReg) : (s.latchRecord r).ndec = s.ndec := rfl

@[simp] theorem latchRecord_P (s : State) (r : RecordReg) : (s.latchRecord r).P = s.P := rfl

@[simp] theorem latchRecord_crc (s : State) (r : RecordReg) : (s.latchRecord r).crc = s.crc := rfl

@[simp] theorem latchRecord_count (s : State) (r : RecordReg) : (s.latchRecord r).count = s.count := rfl

@[simp] theorem latchRecord_record (s : State) (r : RecordReg) : (s.latchRecord r).record = r := rfl

@[simp] theorem latchRecord_mem (s : State) (r : RecordReg) : (s.latchRecord r).mem = s.mem := rfl

@[simp] theorem latchRecord_rowLen (s : State) (r : RecordReg) : (s.latchRecord r).rowLen = s.rowLen := rfl

@[simp] theorem latchRecord_inputs (s : State) (r : RecordReg) : (s.latchRecord r).inputs = s.inputs := rfl

@[simp] theorem latchRecord_sink (s : State) (r : RecordReg) : (s.latchRecord r).sink = s.sink := rfl

/-! ### `State.withPort` -/

@[simp] theorem withPort_phase (s : State) (p : PortIn) : (s.withPort p).phase = s.phase := rfl

@[simp] theorem withPort_nbits (s : State) (p : PortIn) : (s.withPort p).nbits = s.nbits := rfl

@[simp] theorem withPort_cursor (s : State) (p : PortIn) : (s.withPort p).cursor = s.cursor := rfl

@[simp] theorem withPort_mpos (s : State) (p : PortIn) : (s.withPort p).mpos = s.mpos := rfl

@[simp] theorem withPort_found (s : State) (p : PortIn) : (s.withPort p).found = s.found := rfl

@[simp] theorem withPort_dcur (s : State) (p : PortIn) : (s.withPort p).dcur = s.dcur := rfl

@[simp] theorem withPort_ndec (s : State) (p : PortIn) : (s.withPort p).ndec = s.ndec := rfl

@[simp] theorem withPort_P (s : State) (p : PortIn) : (s.withPort p).P = s.P := rfl

@[simp] theorem withPort_crc (s : State) (p : PortIn) : (s.withPort p).crc = s.crc := rfl

@[simp] theorem withPort_count (s : State) (p : PortIn) : (s.withPort p).count = s.count := rfl

@[simp] theorem withPort_record (s : State) (p : PortIn) : (s.withPort p).record = s.record := rfl

@[simp] theorem withPort_mem (s : State) (p : PortIn) : (s.withPort p).mem = s.mem := rfl

@[simp] theorem withPort_rowLen (s : State) (p : PortIn) : (s.withPort p).rowLen = s.rowLen := rfl

@[simp] theorem withPort_inputs (s : State) (p : PortIn) : (s.withPort p).inputs = p :: s.inputs.tail := rfl

@[simp] theorem withPort_sink (s : State) (p : PortIn) : (s.withPort p).sink = s.sink := rfl

end Sys2Proof.Machine
end

