-- ==== Sys2Proof/Laws/Ops.lean ====
section
/-! SUPPORT. One lemma for each shared operation that says once everything it can do: a search, the decoder's loop,
a symbol step, the postamble test, and a step of the machine. Later proofs cite these and unfold nothing. -/

namespace Sys2Proof.Machine

/-! ### Outcomes -/

theorem orFault_eq_next {o : Option State} {t : State} : orFault o = .next t ↔ o = some t := by
  cases o <;> simp [orFault]

theorem orFault_eq_fault {o : Option State} {r : Fault} : orFault o = .fault r ↔ o = none := by
  cases o <;> cases r <;> simp [orFault]

theorem next_inj {s t : State} : (Host.Outcome.next s : Result) = .next t ↔ s = t := by
  constructor
  · intro h; injection h
  · rintro rfl; rfl

/-! ### The window test and the search -/

/-- A window that extends beyond `nbits` never matches (R81). -/
theorem match8_of_gt {s : State} {p : Nat} (h : s.nbits < p + 8) : s.match8 p = some false := by
  unfold State.match8; rw [if_neg (by simp; omega)]

/-- A window outside the row has no answer (log 4). -/
theorem match8_eq_none {s : State} {p : Nat} : s.match8 p = none ↔ p + 8 ≤ s.nbits ∧ s.rowLen < p + 8 := by
  unfold State.match8
  by_cases h : p + 8 ≤ s.nbits
  · rw [if_pos (by simpa using h)]
    by_cases hr : s.rowLen < p + 8
    · rw [memRead_eq_none.mpr ⟨by omega, hr⟩]; simp [h, hr]
    · have hne : s.memRead p 8 ≠ none := fun hn => hr (memRead_eq_none.mp hn).2
      obtain ⟨w, hw⟩ := Option.ne_none_iff_exists'.mp hne
      rw [hw]; simp [hr]
  · rw [if_neg (by simpa using h)]; simp [h]

/-- A match is a full window of existing bits that shows the preamble, bit by bit (R61, R81). -/
theorem match8_eq_true {s : State} {p : Nat} :
    s.match8 p = some true ↔ p + 8 ≤ s.nbits ∧ p + 8 ≤ s.rowLen ∧
      ∀ j, j < 8 → Memory.bit s.mem (p + j) = Config.preamble.getLsbD (7 - j) := by
  unfold State.match8
  by_cases h : p + 8 ≤ s.nbits
  · rw [if_pos (by simpa using h)]
    cases hw : s.memRead p 8 with
    | none => simp; intro _ hle; have := (memRead_eq_none.mp hw).2; omega
    | some w =>
      obtain ⟨hle, hb⟩ := memRead_eq_some.mp hw
      simp only [Option.some.injEq, decide_eq_true_eq]
      refine ⟨fun he => ⟨h, hle (by omega), fun j hj => ?_⟩, fun ⟨_, _, hb'⟩ => ?_⟩
      · rw [← hb j hj, he]
      · exact byte_ext fun j hj => by rw [← hb' j hj, ← hb j hj]
  · rw [if_neg (by simpa using h)]; simp [h]

/-- All a scan of `n` windows from `p` on can answer. -/
theorem searchFrom_spec (s : State) (n p : Nat) :
    (∃ q, s.searchFrom n p = .found q ∧ p ≤ q ∧ q < p + n ∧ s.match8 q = some true
        ∧ ∀ r, p ≤ r → r < q → s.match8 r = some false)
    ∨ (s.searchFrom n p = .notFound ∧ ∀ r, p ≤ r → r < p + n → s.match8 r = some false)
    ∨ (s.searchFrom n p = .outside ∧ ∃ q, p ≤ q ∧ q < p + n ∧ s.match8 q = none
        ∧ ∀ r, p ≤ r → r < q → s.match8 r = some false) := by
  induction n generalizing p with
  | zero => exact .inr (.inl ⟨rfl, fun r h1 h2 => by omega⟩)
  | succ n ih =>
    unfold State.searchFrom
    cases hm : s.match8 p with
    | none => exact .inr (.inr ⟨rfl, p, le_refl _, by omega, hm, fun r h1 h2 => by omega⟩)
    | some b =>
      cases b with
      | true => exact .inl ⟨p, rfl, le_refl _, by omega, hm, fun r h1 h2 => by omega⟩
      | false =>
        have step : ∀ {q r : Nat}, (∀ r, p + 1 ≤ r → r < q → s.match8 r = some false) → p ≤ r → r < q →
            s.match8 r = some false := fun {q r} h h1 h2 => by
          by_cases hr : r = p
          · exact hr ▸ hm
          · exact h r (by omega) h2
        rcases ih (p + 1) with ⟨q, he, h1, h2, h3, h4⟩ | ⟨he, h⟩ | ⟨he, q, h1, h2, h3, h4⟩
        · exact .inl ⟨q, he, by omega, by omega, h3, fun r => step h4⟩
        · exact .inr (.inl ⟨he, fun r h1 h2 => step (q := p + (n + 1)) (fun r a b => h r a (by omega)) h1 h2⟩)
        · exact .inr (.inr ⟨he, q, by omega, by omega, h3, fun r => step h4⟩)

/-- All `Search(c)` can answer (R80). -/
theorem search_spec (s : State) (c : Nat) :
    (∃ q, s.search c = .found q ∧ c ≤ q ∧ s.match8 q = some true ∧ ∀ r, c ≤ r → r < q → s.match8 r = some false)
    ∨ (s.search c = .notFound ∧ ∀ r, c ≤ r → s.match8 r = some false)
    ∨ (s.search c = .outside ∧ ∃ q, c ≤ q ∧ s.match8 q = none ∧ ∀ r, c ≤ r → r < q → s.match8 r = some false) := by
  rcases searchFrom_spec s (s.nbits - c) c with ⟨q, he, h1, -, h3, h4⟩ | ⟨he, h⟩ | ⟨he, q, h1, -, h3, h4⟩
  · exact .inl ⟨q, he, h1, h3, h4⟩
  · refine .inr (.inl ⟨he, fun r hr => ?_⟩)
    by_cases hlt : r < c + (s.nbits - c)
    · exact h r hr hlt
    · exact match8_of_gt (by omega)
  · exact .inr (.inr ⟨he, q, h1, h3, h4⟩)

/-! ### The decoder -/

/-- A pair is invalid exactly when its bits are equal (R113); a valid one decodes to `MDecBit` (R111). -/
theorem pairBit_eq (mc : McOne) (w : BitVec 2) :
    pairBit mc w = if w.getLsbD 1 = w.getLsbD 0 then none else some (mdecBit mc (w.getLsbD 1) (w.getLsbD 0)) := rfl

/-- What `n` more pairs leave: `k` bits taken, ended by `k = n`, by an invalid pair, or by the end of the row. -/
structure LoopEnd (s t : State) (n k : Nat) : Prop where
  le : k ≤ n
  same : t = { s with P := t.P, ndec := s.ndec + k, dcur := t.dcur }
  valid : ∀ j, j < k → s.dcur + 2 * j + 2 ≤ s.nbits ∧ s.dcur + 2 * j + 2 ≤ s.rowLen ∧
    Memory.bit s.mem (s.dcur + 2 * j) ≠ Memory.bit s.mem (s.dcur + 2 * j + 1)
  stop : (k = n ∧ t.dcur = s.dcur + 2 * k)
    ∨ (k < n ∧ s.dcur + 2 * k + 2 ≤ s.nbits ∧ s.dcur + 2 * k + 2 ≤ s.rowLen ∧ t.dcur = s.dcur + 2 * k + 2
        ∧ Memory.bit s.mem (s.dcur + 2 * k) = Memory.bit s.mem (s.dcur + 2 * k + 1))
    ∨ (k < n ∧ s.nbits < s.dcur + 2 * k + 2 ∧ t.dcur = s.dcur + 2 * k)
  bits : s.ndec + n ≤ 64 → ∀ j, j < 64 → pbit t.P j = (pbit s.P j
    || (decide (s.ndec ≤ j ∧ j < s.ndec + k) && mdecBit Config.mcOne (Memory.bit s.mem (s.dcur + 2 * (j - s.ndec)))
      (Memory.bit s.mem (s.dcur + 2 * (j - s.ndec) + 1))))

/-- All the decoder's loop can answer (R110 to R116). -/
theorem mdecLoop_spec (n : Nat) (s : State) :
    (∃ t k, mdecLoop n s = some t ∧ LoopEnd s t n k)
    ∨ (mdecLoop n s = none ∧ ∃ k, k < n ∧ s.dcur + 2 * k + 2 ≤ s.nbits ∧ s.rowLen < s.dcur + 2 * k + 2
        ∧ ∀ j, j < k → Memory.bit s.mem (s.dcur + 2 * j) ≠ Memory.bit s.mem (s.dcur + 2 * j + 1)) := by
  induction n generalizing s with
  | zero =>
    refine .inl ⟨s, 0, rfl, ⟨le_refl _, rfl, fun j h => by omega, .inl ⟨rfl, rfl⟩, fun _ j _ => ?_⟩⟩
    simp
  | succ n ih =>
    unfold mdecLoop
    by_cases hn : s.dcur + 2 ≤ s.nbits
    · rw [if_pos hn]
      by_cases hr : s.dcur + 2 ≤ s.rowLen
      · obtain ⟨w, hw, ha, hb⟩ := memRead_pair hr
        rw [hw]
        simp only [pairBit_eq, ha, hb]
        by_cases hv : Memory.bit s.mem s.dcur = Memory.bit s.mem (s.dcur + 1)
        · rw [if_pos hv]
          refine .inl ⟨s.takeInvalid, 0, rfl, ⟨by omega, rfl, fun j h => by omega,
            .inr (.inl ⟨by omega, by simpa using hn, by simpa using hr, by simp, by simpa using hv⟩), fun _ j _ => ?_⟩⟩
          simp
        · rw [if_neg hv]
          simp only
          rcases ih (s.takeBit (mdecBit Config.mcOne (Memory.bit s.mem s.dcur) (Memory.bit s.mem (s.dcur + 1)))) with
            ⟨t, k, he, hle, hsame, hval, hstop, hbits⟩ | ⟨he, k, hk, h1, h2, h3⟩
          · refine .inl ⟨t, k + 1, he, ⟨by omega, ?_, fun j hj => ?_, ?_, fun hle64 j hj => ?_⟩⟩
            · rw [hsame]; simp [State.takeBit]; omega
            · cases j with
              | zero => exact ⟨by simpa using hn, by simpa using hr, by simpa using hv⟩
              | succ j =>
                have := hval j (by omega)
                simp only [takeBit_dcur, takeBit_nbits, takeBit_rowLen, takeBit_mem] at this
                rw [show s.dcur + 2 * (j + 1) = s.dcur + 2 + 2 * j by omega]
                exact this
            · simp only [takeBit_dcur, takeBit_nbits, takeBit_rowLen, takeBit_mem] at hstop
              rw [show s.dcur + 2 * (k + 1) = s.dcur + 2 + 2 * k by omega]
              rcases hstop with ⟨h1, h2⟩ | ⟨h1, h2⟩ | ⟨h1, h2⟩
              · exact .inl ⟨by omega, h2⟩
              · exact .inr (.inl ⟨by omega, h2⟩)
              · exact .inr (.inr ⟨by omega, h2⟩)
            · have hb := hbits (by simp; omega) j hj
              simp only [takeBit_dcur, takeBit_mem, takeBit_ndec, takeBit_P] at hb
              rw [hb, pbit_porBit _ (by omega)]
              by_cases hjn : s.ndec = j
              · subst hjn; simp
              · by_cases hlt : s.ndec < j
                · rw [show s.dcur + 2 + 2 * (j - (s.ndec + 1)) = s.dcur + 2 * (j - s.ndec) by omega]
                  simp only [hjn, decide_false, Bool.false_and, Bool.or_false,
                    show s.ndec + 1 ≤ j ↔ s.ndec ≤ j by omega,
                    show j < s.ndec + 1 + k ↔ j < s.ndec + (k + 1) by omega]
                · simp [hjn, show ¬ (s.ndec + 1 ≤ j) by omega, show ¬ (s.ndec ≤ j) by omega]
          · simp only [takeBit_dcur, takeBit_nbits, takeBit_rowLen, takeBit_mem] at h1 h2 h3
            refine .inr ⟨he, k + 1, by omega, by omega, by omega, fun j hj => ?_⟩
            cases j with
            | zero => simpa using hv
            | succ j =>
              rw [show s.dcur + 2 * (j + 1) = s.dcur + 2 + 2 * j by omega]
              exact h3 j (by omega)
      · rw [memRead_eq_none.mpr ⟨Nat.two_pos, Nat.lt_of_not_le hr⟩]
        exact .inr ⟨rfl, 0, by omega, by omega, by omega, fun j h => by omega⟩
    · rw [if_neg hn]
      refine .inl ⟨s, 0, rfl, ⟨by omega, rfl, fun j h => by omega, .inr (.inr ⟨by omega, by omega, by simp⟩),
        fun _ j _ => ?_⟩⟩
      simp

/-- All `MDEC` can answer (R110): a loop of 64 pairs from a cleared scratch, then `LENCHK`. -/
theorem execMdec_spec (s : State) :
    (∃ t k, execMdec s = .next { s with P := t.P, ndec := k, dcur := t.dcur, phase := .lenchk }
        ∧ LoopEnd { s with P := pzero, ndec := 0 } t 64 k)
    ∨ (execMdec s = .fault .bitOutsideRow ∧ ∃ k, k < 64 ∧ s.dcur + 2 * k + 2 ≤ s.nbits
        ∧ s.rowLen < s.dcur + 2 * k + 2
        ∧ ∀ j, j < k → Memory.bit s.mem (s.dcur + 2 * j) ≠ Memory.bit s.mem (s.dcur + 2 * j + 1)) := by
  unfold execMdec mdecode
  rcases mdecLoop_spec 64 { s with P := pzero, ndec := 0 } with ⟨t, k, he, hend⟩ | ⟨he, k, h⟩
  · refine .inl ⟨t, k, ?_, hend⟩
    rw [show Config.decLen = 64 from rfl, he]
    simp only [Option.map_some, orFault]
    rw [hend.same]
    simp [State.goto]
  · refine .inr ⟨?_, k, h⟩
    rw [show Config.decLen = 64 from rfl, he]
    rfl

/-- All a symbol step can do (R117). -/
theorem symbolStep_cases (s : State) (v : Option Bool) :
    (s.ndec < 64 ∧ s.dcur + 2 ≤ s.nbits ∧ ∃ b, v = some b
        ∧ s.symbolStep v = (s.takeBit b).goto (if s.ndec + 1 < 64 then .mdec else .lenchk))
    ∨ (s.ndec < 64 ∧ s.dcur + 2 ≤ s.nbits ∧ v = none ∧ s.symbolStep v = s.takeInvalid.goto .lenchk)
    ∨ (¬ (s.ndec < 64 ∧ s.dcur + 2 ≤ s.nbits) ∧ s.symbolStep v = s.goto .lenchk) := by
  unfold State.symbolStep
  by_cases h : s.ndec < 64 ∧ s.dcur + 2 ≤ s.nbits
  · rw [if_pos (by simpa using h)]
    cases v with
    | some b => exact .inl ⟨h.1, h.2, b, rfl, rfl⟩
    | none => exact .inr (.inl ⟨h.1, h.2, rfl, rfl⟩)
  · rw [if_neg (by simpa using h)]
    exact .inr (.inr ⟨h, rfl⟩)

/-! ### The postamble -/

theorem post_eq (l : Bool) (w : BitVec 2) : w = Config.post l ↔ w.getLsbD 1 = l ∧ w.getLsbD 0 = l := by
  revert l w; decide

/-- All the postamble test can answer (R120 to R122). -/
theorem postOk_spec (s : State) :
    (s.nbits < s.dcur + 2 ∧ s.postOk = some false)
    ∨ (s.dcur + 2 ≤ s.nbits ∧ s.dcur + 2 ≤ s.rowLen ∧ s.postOk = some (decide (Memory.bit s.mem s.dcur = s.lastBit
        ∧ Memory.bit s.mem (s.dcur + 1) = s.lastBit)))
    ∨ (s.dcur + 2 ≤ s.nbits ∧ s.rowLen < s.dcur + 2 ∧ s.postOk = none) := by
  unfold State.postOk
  by_cases h : s.dcur + 2 ≤ s.nbits
  · rw [if_pos (by simpa using h)]
    by_cases hr : s.dcur + 2 ≤ s.rowLen
    · obtain ⟨w, hw, ha, hb⟩ := memRead_pair hr
      refine .inr (.inl ⟨h, hr, ?_⟩)
      rw [hw]
      simp only [post_eq, ha, hb]
    · refine .inr (.inr ⟨h, by omega, ?_⟩)
      rw [memRead_eq_none.mpr ⟨Nat.two_pos, Nat.lt_of_not_le hr⟩]
  · rw [if_neg (by simpa using h)]
    exact .inl ⟨by omega, rfl⟩

/-! ### A step -/

/-- All a step can do: `rst`, or the fetched instruction, on the state with its ports sampled. -/
theorem step_cases (s : State) :
    (s.port.rst = true ∧ step s = .next s.popPort.hardReset)
    ∨ (s.port.rst = false ∧ step s = exec (fetch s) s.popPort) := by
  unfold step stepWith
  cases h : s.port.rst <;> simp

/-- All `fetch` can answer (R12, R25). -/
theorem fetch_cases (s : State) :
    (Phase.isRest s.phase = true ∧ s.port.start = true ∧ fetch s = .start s.port.nbits)
    ∨ (¬ (Phase.isRest s.phase = true ∧ s.port.start = true) ∧ fetch s = phaseInstr s.phase) := by
  unfold fetch
  cases h1 : Phase.isRest s.phase <;> cases h2 : s.port.start <;> simp

end Sys2Proof.Machine
end

