-- ==== Sys2Proof/Laws/PerInstr.lean ====
section
/-! SUPPORT. Statements about every instruction as syntax, one lemma per constructor of `Instr`. -/

namespace Sys2Proof

namespace Laws.EncodeFits

/-- The word of a well-formed instruction fits in its format (R60). -/
def Statement (i : Instr) : Prop :=
  ∀ mc : McOne, i.wf = true → (encode mc i).2 < 2 ^ formatWidth (encode mc i).1

theorem preamble : Statement .preamble := fun mc _ => by cases mc <;> decide
theorem ms0 : Statement .ms0 := fun mc _ => by cases mc <;> decide
theorem ms1 : Statement .ms1 := fun mc _ => by cases mc <;> decide
theorem msx0 : Statement .msx0 := fun mc _ => by cases mc <;> decide
theorem msx1 : Statement .msx1 := fun mc _ => by cases mc <;> decide
theorem pa0 : Statement .pa0 := fun mc _ => by cases mc <;> decide
theorem pa1 : Statement .pa1 := fun mc _ => by cases mc <;> decide

theorem frame (u : BitVec 24) (f t d x c : Byte) : Statement (.frame u f t d x c) := fun _ _ => by
  have := u.isLt; have := f.isLt; have := t.isLt; have := d.isLt; have := x.isLt; have := c.isLt
  simp only [encode_frame, formatWidth, Config.decLen]
  omega

theorem search : Statement .search := fun mc _ => by cases mc <;> decide
theorem guard : Statement .guard := fun mc _ => by cases mc <;> decide
theorem skip : Statement .skip := fun mc _ => by cases mc <;> decide
theorem mdec : Statement .mdec := fun mc _ => by cases mc <;> decide
theorem lenchk : Statement .lenchk := fun mc _ => by cases mc <;> decide
theorem postchk : Statement .postchk := fun mc _ => by cases mc <;> decide
theorem crcchk : Statement .crcchk := fun mc _ => by cases mc <;> decide
theorem extract : Statement .extract := fun mc _ => by cases mc <;> decide
theorem emit : Statement .emit := fun mc _ => by cases mc <;> decide
theorem resume : Statement .resume := fun mc _ => by cases mc <;> decide
theorem finish : Statement .finish := fun mc _ => by cases mc <;> decide
theorem idle : Statement .idle := fun mc _ => by cases mc <;> decide
theorem done : Statement .done := fun mc _ => by cases mc <;> decide

theorem start (n : Nat) : Statement (.start n) := fun _ h => by
  have : n < 2 ^ Config.W := by simpa [Instr.wf] using h
  simp only [encode, formatWidth, Nat.pow_add]
  omega

end Laws.EncodeFits

end Sys2Proof
end

