-- ==== Sys2Proof/Laws/Reference.lean ====
section
/-! SUPPORT. The reference definition in the spec's own numbers (R7, R61, R81). -/

namespace Sys2Proof.Machine

/-- `Match8(p)`, its eight bits as R81 lists them. -/
theorem refMatch_eq (bit : Nat → Bool) (nbits p : Nat) : refMatch bit nbits p =
    (decide (p + 8 ≤ nbits) && !bit p && bit (p + 1) && !bit (p + 2) && bit (p + 3) && bit (p + 4)
      && !bit (p + 5) && !bit (p + 6) && !bit (p + 7)) := by
  simp [refMatch, List.range, List.range.loop, Config.preamble, Bool.and_assoc]

/-- What a candidate yields, in R7's numbers. -/
theorem refCandidate_eq (mc : McOne) (bit : Nat → Bool) (nbits p : Nat) : refCandidate mc bit nbits p =
    let b := refByte mc bit (p + 8)
    if refValid bit (p + 8) = 64 ∧ p + 138 ≤ nbits
        ∧ bit (p + 136) = (b 7).getLsbD 0 ∧ bit (p + 137) = (b 7).getLsbD 0
        ∧ crc8 [b 0, b 1, b 2, b 3, b 4, b 5, b 6] = b 7 then
      some (refRecord b)
    else none := rfl

end Sys2Proof.Machine
end

