-- ==== Sys2Proof/Laws/Runs.lean ====
section
/-! SUPPORT. A run taken apart at its first step. -/

namespace Sys2Proof.Machine

theorem runs_zero (s : State) : runs 0 s = .next s := rfl

theorem runs_succ_of_step {s t : State} (h : step s = .next t) (k : Nat) : runs (k + 1) s = runs k t := by
  have h' : Host.Core.step Sys2Proof.core s = .next t := h
  simp only [runs, Host.Core.run, h']
  rfl

theorem runs_succ_next {s v : State} {k : Nat} (h : runs (k + 1) s = .next v) :
    ∃ t, step s = .next t ∧ runs k t = .next v := by
  cases hs : step s with
  | next t => exact ⟨t, rfl, runs_succ_of_step hs k ▸ h⟩
  | fault r =>
    have h' : Host.Core.step Sys2Proof.core s = .fault r := hs
    simp [runs, Host.Core.run, h'] at h
  | refused r =>
    have h' : Host.Core.step Sys2Proof.core s = .refused r := hs
    simp [runs, Host.Core.run, h'] at h

end Sys2Proof.Machine
end

