-- ==== Sys2Proof/Tests/Slice0.lean ====
section
/-! SUPPORT. Small tests, each about one word or one step, their expected results from the spec's worked vectors
(`95_test_vectors.md`, entry named at each) or written out from its encodings; then, for every statement with
hypotheses, a state and operands that meet them all. -/

namespace Sys2Proof.Tests

open Sys2Proof.Machine

/-- The next state of an outcome. -/
def nextOf : Result → Option State
  | .next s => some s
  | .fault _ => none
  | .refused _ => none

/-- The reset state with the bytes of a buffer of `n` bits, latched. -/
def withRow (bytes : List Byte) (n : Nat) : State :=
  { State.reset with
    mem := bytes.zipIdx.foldl (fun m c => Memory.write m c.2 c.1) []
    rowLen := n
    nbits := n }

/-- Frame A of TV2, 138 bits. -/
def bytesA : List Byte :=
  [0x58#8, 0xA9#8, 0xA6#8, 0xA5#8, 0x9A#8, 0x99#8, 0x96#8, 0xAA#8, 0xAA#8, 0xA5#8, 0x9A#8, 0xA6#8, 0x66#8, 0xAA#8,
   0xAA#8, 0x59#8, 0x55#8, 0xC0#8]

/-- The payload of frame A (TV2). -/
def payloadA : Payload := payloadOfWord 0x12345600342A00DF#64

def rowA : State := withRow bytesA 138

/-- The self-overlapping preambles of V-P3 to V-P5: `010110001011000`. -/
def overlap : State := withRow [0x58#8, 0xB0#8] 15

/-- The host raises `start` with `NBITS = n` for the coming step. -/
def started (s : State) (n : Nat) : State := { s with inputs := [⟨false, true, n⟩] }

/-! ### WellFormed: the one check refuses an ill-formed term -/

theorem test_wf_refuses_nbits_of_W_bits_and_one : (Instr.start (2 ^ Config.W)).wf = false := by
  simp [Instr.wf]

theorem test_wf_takes_nbits_of_eight_bits : (Instr.start 255).wf = true := by
  have h : 2 ^ 8 ≤ 2 ^ Config.W := Nat.pow_le_pow_right (by omega) (by simp [Config.W])
  simp [Instr.wf]
  omega

/-! ### Decode: every constructor from the word the spec's encoding gives it -/

theorem test_decode_preamble : decode .pair01 .sync8 0b01011000 = .ok .preamble := by decide
theorem test_decode_ms0 : decode .pair01 .msym2 0b10 = .ok .ms0 := by decide
theorem test_decode_ms1 : decode .pair01 .msym2 0b01 = .ok .ms1 := by decide
theorem test_decode_msx0 : decode .pair01 .msym2 0b00 = .ok .msx0 := by decide
theorem test_decode_msx1 : decode .pair01 .msym2 0b11 = .ok .msx1 := by decide
theorem test_decode_pa0 : decode .pair01 .post2 0b00 = .ok .pa0 := by decide
theorem test_decode_pa1 : decode .pair01 .post2 0b11 = .ok .pa1 := by decide
/-- The payload of frame C (TV2), field by field. -/
theorem test_decode_frame : decode .pair01 .frame64 0x00000141_5155FFCF
    = .ok (.frame 0x000001#24 0x41#8 0x51#8 0x55#8 0xFF#8 0xCF#8) := by decide +kernel
theorem test_decode_search : decode .pair01 .phase4 0b0001 = .ok .search := by decide
theorem test_decode_guard : decode .pair01 .phase4 0b0010 = .ok .guard := by decide
theorem test_decode_skip : decode .pair01 .phase4 0b0011 = .ok .skip := by decide
theorem test_decode_mdec : decode .pair01 .phase4 0b0100 = .ok .mdec := by decide
theorem test_decode_lenchk : decode .pair01 .phase4 0b0101 = .ok .lenchk := by decide
theorem test_decode_postchk : decode .pair01 .phase4 0b0110 = .ok .postchk := by decide
theorem test_decode_crcchk : decode .pair01 .phase4 0b0111 = .ok .crcchk := by decide
theorem test_decode_extract : decode .pair01 .phase4 0b1000 = .ok .extract := by decide
theorem test_decode_emit : decode .pair01 .phase4 0b1001 = .ok .emit := by decide
theorem test_decode_resume : decode .pair01 .phase4 0b1010 = .ok .resume := by decide
theorem test_decode_finish : decode .pair01 .phase4 0b1011 = .ok .finish := by decide
theorem test_decode_idle : decode .pair01 .phase4 0b0000 = .ok .idle := by decide
theorem test_decode_done : decode .pair01 .phase4 0b1100 = .ok .done := by decide
theorem test_decode_start : decode .pair01 .hostcmd 1 = .ok (.start 0) := by decide

theorem test_tableWord_preamble : decodeTableWord 8 0x58 = some .preamble := by decide
theorem test_tableWord_phase : decodeTableWord 8 0x0B = some .finish := by decide
theorem test_tableWord_frame : decodeTableWord 64 0x1234567800000000
    = some (.frame 0x123456#24 0x78#8 0#8 0#8 0#8 0#8) := by decide +kernel
theorem test_fetchWord_preamble : step (State.reset.withFetchWord 8 0x58)
    = exec .preamble (State.reset.withFetchWord 8 0x58).popPort := by rfl

/-! ### The buffer (R46) -/

/-- Bits 8 to 11 of frame A are `1010` (TV2). -/
theorem test_bits_of_frame_A : (List.range 4).map (fun i => rowA.readBit (8 + i))
    = [some true, some false, some true, some false] := by decide
theorem test_memRead_postamble_of_A : rowA.memRead 136 2 = some 0b11#2 := by decide
theorem test_memRead_past_the_row : rowA.memRead 137 2 = none := by decide
theorem test_frameBits_are_frame_A : (frameBits .pair01 payloadA).map some
    = (List.range 138).map rowA.readBit := by decide +kernel

/-! ### SEARCH and PREAMBLE (TV3) -/

/-- V-P4. -/
theorem test_search_second_of_overlap : overlap.search 1 = .found 7 := by decide
/-- V-P5. -/
theorem test_search_window_does_not_fit : overlap.search 8 = .notFound := by decide
/-- V-P8: the window ends at the last bit. -/
theorem test_preamble_at_the_last_bit :
    (nextOf (exec .preamble (withRow [0x58#8] 8))).map (fun t => (t.found, t.mpos, t.phase))
      = some (true, 0, .guard) := by decide

/-! ### GUARD, SKIP, RESUME, FINISH, START (TV4, TV16) -/

/-- V-G4. -/
theorem test_guard_passes_at_the_boundary :
    (nextOf (exec .guard { State.reset with mpos := 7, nbits := 143 })).map (·.phase) = some .skip := by decide
/-- V-G5. -/
theorem test_guard_stops_one_below :
    (nextOf (exec .guard { State.reset with mpos := 7, nbits := 142 })).map (·.phase) = some .finish := by decide
/-- V-S5. -/
theorem test_skip_clears_a_stale_scratch :
    (nextOf (exec .skip { State.reset with mpos := 130, P := payloadA, ndec := 64 })).map
      (fun t => (t.cursor, t.dcur, t.ndec, t.P)) = some (138, 138, 0, pzero) := by decide
/-- V-S6. -/
theorem test_resume_keeps_the_cursor :
    (nextOf (exec .resume { State.reset with cursor := 138, dcur := 146 })).map (fun t => (t.cursor, t.phase))
      = some (138, .search) := by decide
/-- V-S6, the other value of `RESUME_AT`. -/
theorem test_resume_after_decode :
    ({ State.reset with cursor := 138, dcur := 146 }.returnToScan .afterDecode).cursor = 146 := by decide
/-- V-S7. -/
theorem test_finish_gives_the_count :
    (nextOf (exec .finish { State.reset with count := 2, phase := .finish })).map
      (fun t => (t.done, t.busy, t.result)) = some (true, false, some 2) := by decide
/-- V-S3. -/
theorem test_start_from_done :
    (nextOf (exec (.start 0) { State.reset with phase := .done, count := 2, nbits := 276 })).map
      (fun t => (t.count, t.nbits, t.phase)) = some (0, 0, .search) := by decide
/-- V-S4. -/
theorem test_start_while_busy :
    (nextOf (exec (.start 9) { State.reset with phase := .mdec, nbits := 5 })).map (fun t => (t.nbits, t.phase))
      = some (5, .mdec) := by decide
/-- V-S1, V-S2: `IDLE` waits, then `START` is honoured. -/
theorem test_idle_waits : (nextOf (step State.reset)).map (·.phase) = some .idle := by decide
theorem test_done_waits : (nextOf (step { State.reset with phase := .done, count := 3 })).map
    (fun t => (t.phase, t.count)) = some (.done, 3) := by decide
theorem test_step_starts : (nextOf (step (started State.reset 138))).map (fun t => (t.phase, t.nbits, t.busy))
    = some (.search, 138, true) := by decide

/-! ### MDEC, LENCHK and the symbols (TV6, TV7) -/

/-- V-M3: raw bit 20 of frame A flipped. -/
theorem test_mdec_stops_at_an_invalid_pair :
    (nextOf (exec .mdec { withRow [0x58#8, 0xA9#8, 0xAE#8, 0xA5#8, 0x9A#8, 0x99#8, 0x96#8, 0xAA#8, 0xAA#8, 0xA5#8,
        0x9A#8, 0xA6#8, 0x66#8, 0xAA#8, 0xAA#8, 0x59#8, 0x55#8, 0xC0#8] 138 with dcur := 8 })).map
      (fun t => (t.ndec, t.dcur, pbyte t.P 0, pbyte t.P 1)) = some (6, 22, 0x10#8, 0#8) := by decide +kernel
/-- V-M1. -/
theorem test_mdec_decodes_frame_A :
    (nextOf (exec .mdec { rowA with dcur := 8 })).map (fun t => (t.ndec, t.dcur, t.P))
      = some (64, 136, payloadA) := by decide +kernel
theorem test_lenchk_rejects_63 :
    (nextOf (exec .lenchk { State.reset with ndec := 63 })).map (·.phase) = some .resume := by decide
/-- V-M8: pair 8 alone `01`. -/
theorem test_ms1_writes_the_top_bit_of_byte_one :
    (nextOf (exec .ms1 { State.reset with ndec := 8, nbits := 136 })).map
      (fun t => (pbyte t.P 1, t.ndec, t.dcur, t.phase)) = some (0x80#8, 9, 2, .mdec) := by decide
theorem test_ms0_ends_at_sixty_four :
    (nextOf (exec .ms0 { State.reset with ndec := 63, nbits := 136 })).map (fun t => (t.P, t.ndec, t.phase))
      = some (pzero, 64, .lenchk) := by decide
/-- V-M2: the invalid pair counts as consumed. -/
theorem test_msx0_counts_as_consumed :
    (nextOf (exec .msx0 { State.reset with dcur := 8, nbits := 138 })).map (fun t => (t.ndec, t.dcur, t.phase))
      = some (0, 10, .lenchk) := by decide
theorem test_msx1_counts_as_consumed :
    (nextOf (exec .msx1 { State.reset with dcur := 20, ndec := 6, nbits := 138 })).map
      (fun t => (t.ndec, t.dcur, t.phase)) = some (6, 22, .lenchk) := by decide
/-- V-M9, the other value of `MC_ONE`. -/
theorem test_pair10_inverts : (mdecBit .pair10 true false, mdecBit .pair01 true false) = (true, false) := by decide

/-! ### POSTCHK, CRCCHK and the postambles (TV8, TV9) -/

/-- V-V1. -/
theorem test_postchk_passes_frame_A :
    (nextOf (exec .postchk { rowA with dcur := 136, P := payloadA })).map (·.phase) = some .crcchk := by decide
/-- V-V4b: one postamble bit only. -/
theorem test_postchk_rejects_a_cut_postamble :
    (nextOf (exec .postchk { rowA with nbits := 137, dcur := 136, P := payloadA })).map (·.phase)
      = some .resume := by decide
theorem test_pa1_after_a_last_one :
    (nextOf (exec .pa1 { rowA with dcur := 136, P := payloadA })).map (·.phase) = some .crcchk := by decide
/-- V-V3a. -/
theorem test_pa0_after_a_last_one :
    (nextOf (exec .pa0 { rowA with dcur := 136, P := payloadA })).map (·.phase) = some .resume := by decide
/-- V-C1: the check value. -/
theorem test_crc8_check_value :
    crc8 [0x31#8, 0x32#8, 0x33#8, 0x34#8, 0x35#8, 0x36#8, 0x37#8, 0x38#8, 0x39#8] = 0xA1#8 := by decide +kernel
/-- V-C4g. -/
theorem test_crc8_last_byte : crc8 [0#8, 0#8, 0#8, 0#8, 0#8, 0#8, 1#8] = 0x5E#8 := by decide +kernel
theorem test_crcchk_passes_frame_A :
    (nextOf (exec .crcchk { State.reset with P := payloadA })).map (fun t => (t.crc, t.phase))
      = some (0xDF#8, .extract) := by decide +kernel
/-- V-C8.d: `Crc8 = 74` against `DF`. -/
theorem test_crcchk_rejects_a_flipped_data_bit :
    (nextOf (exec .crcchk { State.reset with P := payloadOfWord 0x12345600352A00DF#64 })).map
      (fun t => (t.crc, t.phase)) = some (0x74#8, .resume) := by decide +kernel

/-! ### EXTRACT, FRAME and EMIT (TV14, TV15, TV16) -/

/-- V-X3: byte 3 does not enter the identifier; the binding flag is set. -/
theorem test_extract_frame_C :
    (nextOf (exec .extract { State.reset with P := payloadOfWord 0x000001415155FFCF#64 })).map (·.record)
      = some ⟨1#32, 0x41#8, 81#8, 0x51#8, 85#8, 85#8⟩ := by decide
/-- V-X6: bit 0 of `FE` is clear. -/
theorem test_frame_H :
    (nextOf (exec (.frame 0x000002#24 0xFE#8 0x10#8 0x77#8 0x00#8 0x75#8) State.reset)).map (·.record)
      = some ⟨2#32, 0xFE#8, 16#8, 0x10#8, 0#8, 119#8⟩ := by decide
/-- R9's worked example. -/
theorem test_worked_temperature :
    ({ RecordReg.zero with tempQ2 := Config.exampleMaybetemp } : RecordReg).toSink.temperatureC
      = Config.exampleTemperature := by decide +kernel
/-- V-E1, T6: `maybetemp = 52` gives `13.0`. -/
theorem test_emit_frame_A :
    (nextOf (exec .emit { State.reset with record := ⟨0x123456#32, 0#8, 52#8, 0x34#8, 0#8, 42#8⟩ })).map
      (fun t => (t.sink, t.count, t.phase))
      = some ([⟨"Oil-Proteus", 0x123456, 0, 52, 13, 0, 42⟩], 1, .resume) := by decide +kernel
/-- V-X8. -/
theorem test_binary64_of_81 : temperatureBinary64 81#8 = 0x4034400000000000#64 := by decide +kernel
/-- R9: "8 + 128 = 136 and 128 / 2 = 64", and eight bytes are the 64 decoded bits. -/
theorem test_literals_agree : Config.guardLen = 136 ∧ Config.rawLen / Config.symLen = Config.decLen
    ∧ 8 * Config.payloadBytes = Config.decLen ∧ Config.crcBytes + 1 = Config.payloadBytes := by decide
/-- R9: `11` is the high 2 bits of `0xC0`. -/
theorem test_post_byte : Config.postByte.extractLsb' 6 2 = Config.post true := by decide
/-- R76. -/
theorem test_model_bytes : Config.modelId.toList.map (fun c => BitVec.ofNat 8 c.toNat) = Config.modelIdBytes := by
  decide +kernel

/-! ### A step of each kind -/

theorem test_rst_has_priority_over_start :
    (nextOf (step { State.reset with count := 4, phase := .done, inputs := [⟨true, true, 9⟩] })).map
      (fun t => (t.phase, t.count, t.nbits)) = some (.idle, 0, 0) := by decide
/-- Log 4: `NBITS` beyond the row. -/
theorem test_search_faults_outside_the_row :
    exec .search { withRow [0x58#8] 7 with nbits := 8 } = .fault .bitOutsideRow := by rfl

/-! ### Witnesses: states and operands that meet the hypotheses of the statements -/

theorem witness_rst : (({ State.reset with inputs := [⟨true, false, 0⟩] } : State).port).rst = true := by decide

theorem witness_not_busy : State.reset.busy = false := by decide

theorem witness_busy : (({ State.reset with phase := .mdec } : State)).busy = true
    ∧ (({ State.reset with phase := .mdec } : State).port).rst = false := by decide

/-- Clause 1 of `SearchFindsTheLeastOccurrence`, the window ending at the last bit. -/
theorem witness_search_found : ∃ s : State, s.cursor ≤ 7 ∧ s.occursAt 7
    ∧ ∀ q, s.cursor ≤ q → q < 7 → ¬ s.occursAt q := by
  refine ⟨{ overlap with cursor := 1 }, by decide, ?_, fun q h1 h2 => ?_⟩
  · unfold State.occursAt; decide
  · unfold State.occursAt
    have h1' : 1 ≤ q := h1
    interval_cases q <;> decide

/-- Clause 2 of `SearchFindsTheLeastOccurrence`: one window left that does not match, and none left. -/
theorem witness_search_not_found :
    (∃ s : State, s.cursor + 8 ≤ s.nbits ∧ s.nbits ≤ s.rowLen ∧ ∀ p, s.cursor ≤ p → ¬ s.occursAt p)
    ∧ ∃ s : State, s.nbits < s.cursor + 8 ∧ ∀ p, s.cursor ≤ p → ¬ s.occursAt p := by
  refine ⟨⟨withRow [] 8, by decide, by decide, fun p _ h => ?_⟩,
    ⟨{ overlap with cursor := 8 }, by decide, fun p hp h => ?_⟩⟩
  · have h8 : p + 8 ≤ 8 := h.1
    obtain rfl : p = 0 := by omega
    exact absurd h.2.2.1 (by decide)
  · have h8 : p + 8 ≤ 15 := h.1
    have hp' : 8 ≤ p := hp
    omega

/-- The three clauses of `ReadsOutsideTheRowFault`, each at the first bit the row does not have. -/
theorem witness_reads_outside :
    (∃ s : State, (∀ p, s.cursor ≤ p → ¬ s.occursAt p) ∧ s.cursor + 8 ≤ s.nbits ∧ s.rowLen < s.nbits)
    ∧ (∃ s : State, (∀ k, k < 1 → s.validPair s.dcur k) ∧ s.dcur + 128 ≤ s.nbits ∧ s.rowLen < s.dcur + 2 * 1 + 2)
    ∧ ∃ s : State, s.dcur + 2 ≤ s.nbits ∧ s.rowLen < s.dcur + 2 := by
  refine ⟨⟨{ withRow [0x58#8] 7 with nbits := 8 }, fun p _ h => ?_, by decide, by decide⟩,
    ⟨{ withRow [0x80#8] 3 with nbits := 128 }, ?_, by decide, by decide⟩,
    ⟨{ rowA with dcur := 137, nbits := 139 }, by decide, by decide⟩⟩
  · have h8 : p + 8 ≤ 8 := h.1
    obtain rfl : p = 0 := by omega
    exact absurd h.2.2.2.2.2.2.2.2 (by decide)
  · unfold State.validPair; decide

theorem witness_nbits_in_the_row : rowA.nbits ≤ rowA.rowLen ∧ State.reset.nbits ≤ State.reset.rowLen := by decide

/-- The clauses of `PreambleAtTheCursorIsSearch`: the window ends at the last bit, and does not fit by one. -/
theorem witness_preamble_clauses :
    (∃ s : State, s.cursor + 8 ≤ s.nbits ∧ s.occursAt s.cursor) ∧ ∃ s : State, s.nbits < s.cursor + 8 := by
  refine ⟨⟨{ overlap with cursor := 7 }, by decide, ?_⟩, ⟨{ overlap with cursor := 8 }, by decide⟩⟩
  unfold State.occursAt; decide

/-- A valid body of 64 pairs, and addresses inside it. -/
theorem witness_valid_body : (∀ k, k < 64 → rowA.validPair 8 k) ∧ 8 ≤ 129 ∧ 129 + 6 < 8 + 128 := by
  refine ⟨?_, by decide, by decide⟩
  unfold State.validPair; decide +kernel

/-- `MdecDecodesTheBody` with all pairs valid, and with the first and the last pair invalid (V-M2, V-M4). -/
theorem witness_mdec :
    (∃ s : State, s.dcur + 128 ≤ s.nbits ∧ ∀ k, k < 64 → s.validPair s.dcur k)
    ∧ (∃ s : State, s.dcur + 128 ≤ s.nbits ∧ s.invalidPair s.dcur 0)
    ∧ ∃ s : State, s.dcur + 128 ≤ s.nbits ∧ (∀ k, k < 63 → s.validPair s.dcur k) ∧ s.invalidPair s.dcur 63 := by
  refine ⟨⟨{ rowA with dcur := 8 }, by decide, ?_⟩,
    ⟨{ rowA with mem := Memory.setBit rowA.mem 8 false, dcur := 8 }, by decide, ?_⟩,
    ⟨{ rowA with mem := Memory.setBit rowA.mem 135 false, dcur := 8 }, by decide, ?_, ?_⟩⟩
  · unfold State.validPair; decide +kernel
  · unfold State.invalidPair; decide +kernel
  · unfold State.validPair; decide +kernel
  · unfold State.invalidPair; decide +kernel

/-- `MdecStopsWhereTheRowEnds`: one pair, and half of the next. -/
theorem witness_mdec_row_ends : ∃ s : State,
    (∀ k, k < 1 → s.validPair s.dcur k ∧ s.dcur + 2 * k + 2 ≤ s.nbits) ∧ s.nbits < s.dcur + 2 * 1 + 2 := by
  refine ⟨withRow [0x80#8] 3, ?_, by decide⟩
  unfold State.validPair; decide

/-- `SymbolsConsumeOnePair`: the last bit that fits, and the two ways none is consumed. -/
theorem witness_symbols :
    (∃ s : State, s.ndec < 64 ∧ s.dcur + 2 ≤ s.nbits) ∧ (∃ s : State, 64 ≤ s.ndec)
    ∧ ∃ s : State, s.nbits < s.dcur + 2 :=
  ⟨⟨{ State.reset with ndec := 63, nbits := 2 }, by decide, by decide⟩, ⟨{ State.reset with ndec := 64 }, by decide⟩,
    ⟨{ State.reset with nbits := 1 }, by decide⟩⟩

theorem witness_per_pair : ∃ s : State, s.phase = .mdec ∧ s.ndec = 0 ∧ s.P = pzero ∧ s.dcur + 128 ≤ s.nbits :=
  ⟨{ rowA with phase := .mdec, dcur := 8 }, rfl, rfl, by decide, by decide⟩

/-- `SingleRawBitErrorIsRejected`, at the last raw bit of the body. -/
theorem witness_raw_bit_error : ∃ s : State, Memory.wf s.mem ∧ s.dcur + 128 ≤ s.nbits
    ∧ (∀ k, k < 64 → s.validPair s.dcur k) ∧ s.dcur ≤ 135 ∧ 135 < s.dcur + 128 := by
  refine ⟨{ rowA with dcur := 8 }, by decide, by decide, ?_, by decide, by decide⟩
  unfold State.validPair; decide +kernel

/-- Both clauses of `PostchkComparesTwoBits`, at the boundary, and a pair for `PostamblesArePostchk`. -/
theorem witness_postchk :
    (∃ s : State, s.dcur + 2 ≤ s.nbits ∧ s.readBit s.dcur = some true ∧ s.readBit (s.dcur + 1) = some true
      ∧ s.memRead s.dcur 2 = some 0b11#2)
    ∧ ∃ s : State, s.nbits < s.dcur + 2 :=
  ⟨⟨{ rowA with dcur := 136 }, by decide, by decide, by decide, by decide⟩,
    ⟨{ rowA with dcur := 137 }, by decide⟩⟩

/-- `ChecksumDetectsTwoBitErrors`: frame A's payload with its last two decoded bits flipped. -/
theorem witness_two_bit_error : crcOk payloadA = true
    ∧ ∀ j, j < 64 → pbit (payloadOfWord 0x12345600342A00DC#64) j = (pbit payloadA j ^^ decide (j = 62 ∨ j = 63)) := by
  decide +kernel

theorem witness_equal_lengths : [1#8, 2#8].length = [3#8, (4#8 : Byte)].length := rfl

/-- `BytesSixAndSevenDoNotReachTheRecord`: frames A and A′ of TV2. -/
theorem witness_bytes_six_and_seven : ∀ i, i < 6 →
    pbyte (payloadOfWord 0x12345600342A5A7A#64) i = pbyte ({ rowA with P := payloadA } : State).P i := by decide

/-- `RecordsAndCountMoveTogether`: a step with the strobe and one without. -/
theorem witness_record_steps :
    (∃ s t, step s = .next t ∧ s.recValid = true) ∧ ∃ s t, step s = .next t ∧ s.recValid = false :=
  ⟨⟨{ State.reset with phase := .emit }, _, rfl, by decide⟩, ⟨State.reset, _, rfl, by decide⟩⟩

theorem witness_wf_instr : (Instr.frame 1#24 2#8 3#8 4#8 5#8 6#8).wf = true ∧ (Instr.start 255).wf = true :=
  ⟨rfl, test_wf_takes_nbits_of_eight_bits⟩

theorem witness_decodes : decode .pair10 .msym2 2 = .ok .ms1 := by decide

/-- The ranges of `ReservedPatternsAreRefused`. -/
theorem witness_reserved : (0x59 < 256 ∧ 0x59 ≠ 0x58) ∧ (13 ≤ 13 ∧ 13 < 16) ∧ (13 ≤ 15 ∧ 15 < 16) := by decide

/-- `StepRunsTheDecodedInstruction`: the host command, a working phase, and a rest phase without `start`. -/
theorem witness_step :
    (∃ s : State, s.port.rst = false ∧ s.busy = false ∧ s.port.start = true)
    ∧ (∃ s : State, s.port.rst = false ∧ ¬ (s.busy = false ∧ s.port.start = true)
        ∧ decode Config.mcOne .phase4 (Phase.code s.phase).toNat = .ok .guard)
    ∧ ∃ s : State, s.port.rst = false ∧ s.busy = false ∧ s.port.start = false :=
  ⟨⟨started State.reset 138, by decide⟩, ⟨{ started State.reset 138 with phase := .guard }, by decide⟩,
    ⟨State.reset, by decide⟩⟩

/-- `ControlFollowsThePhaseGraph`, `TheBufferIsNeverWritten`: a step and an instruction that answer a next state. -/
theorem witness_next : ∃ s t u, step s = .next t ∧ s.port.rst = false ∧ exec .skip s = .next u :=
  ⟨State.reset, _, _, rfl, by decide, rfl⟩

/-- The invariant and the host's duties hold together in the state after reset, and in one that `START` is about to
leave with a frame in the row. -/
theorem witness_invariant : ∃ s t, s.Inv ∧ s.hostOk ∧ step s = .next t ∧ s.port.rst = false
    ∧ ¬ (s.busy = false ∧ s.port.start = true) := by
  refine ⟨State.reset, _, ?_, ⟨?_, by decide⟩, rfl, by decide, by decide⟩
  · constructor <;>
      first | decide | exact fun k _ _ => pbit_pzero k | (intro h; exact absurd h.1 (by decide))
  · show 0 < 2 ^ Config.W
    exact Nat.two_pow_pos _

/-- A host that keeps its duties and starts: for runs from `START`, of a full and of a short buffer. -/
theorem witness_start : ∃ s : State, s.busy = false ∧ s.port.start = true ∧ s.hostOk ∧ s.port.nbits = 138 := by
  refine ⟨started rowA 138, by decide, by decide, ⟨?_, by decide⟩, by decide⟩
  have h : 2 ^ 8 ≤ 2 ^ Config.W := Nat.pow_le_pow_right (by omega) (by simp [Config.W])
  have : (started rowA 138).rowLen = 138 := rfl
  omega

theorem witness_short_start : ∃ s : State, s.busy = false ∧ s.port.start = true ∧ s.hostOk ∧ s.port.nbits = 135
    ∧ s.port.nbits < 136 := by
  refine ⟨started rowA 135, by decide, by decide, ⟨?_, by decide⟩, by decide, by decide⟩
  have h : 2 ^ 8 ≤ 2 ^ Config.W := Nat.pow_le_pow_right (by omega) (by simp [Config.W])
  have : (started rowA 135).rowLen = 138 := rfl
  omega

/-- Two cores at rest that differ in every register and in the sink, and see the same buffer and ports. -/
theorem witness_two_cores : ∃ s u : State, s.busy = false ∧ u.busy = false ∧ s.mem = u.mem ∧ s.rowLen = u.rowLen
    ∧ s.inputs = u.inputs ∧ s.port.start = true ∧ s ≠ u ∧ ∃ t, 0 < 1 ∧ runs 1 s = .next t :=
  ⟨started rowA 138, { started rowA 138 with phase := .done, count := 7, cursor := 9, ndec := 3, P := payloadA },
    by decide, by decide, rfl, rfl, rfl, by decide, by decide, _, by decide, rfl⟩

/-- Frame A twice (PROG7, TV28). -/
def bytesAA : List Byte :=
  bytesA.take 17 ++ [0xD6#8, 0x2A#8, 0x69#8, 0xA9#8, 0x66#8, 0xA6#8, 0x65#8, 0xAA#8, 0xAA#8, 0xA9#8, 0x66#8, 0xA9#8,
    0x99#8, 0xAA#8, 0xAA#8, 0x96#8, 0x55#8, 0x70#8]

/-- Every state a run of `k` steps passes through before its last is busy, or the run has stopped. -/
def busyUntil : Nat → State → Bool
  | 0, _ => true
  | k + 1, s =>
    s.busy && match step s with
      | .next t => busyUntil k t
      | .fault _ => true
      | .refused _ => true

theorem busyUntil_runs : ∀ (k : Nat) (s : State), busyUntil k s = true → ∀ j u, j < k → runs j s = .next u → u.busy = true
  | 0, _, _, _, _, hj, _ => absurd hj (Nat.not_lt_zero _)
  | k + 1, s, h, 0, u, _, hr => by
    have hr : Host.Outcome.next s = .next u := hr
    cases hr
    exact (Bool.and_eq_true _ _ ▸ h : s.busy = true ∧ _).1
  | k + 1, s, h, j + 1, u, hj, hr => by
    obtain ⟨w, hs, hw⟩ := runs_succ_next hr
    simp only [busyUntil, hs, Bool.and_eq_true] at h
    exact busyUntil_runs k w h.2 j u (by omega) hw

/-- `EmittedFramesLieFarApart`: PROG7's two `EMIT` states, after 9 and after 19 steps from `START`. -/
theorem witness_two_emits : ∃ (s t u : State), s.busy = false ∧ s.port.start = true ∧ s.port.nbits ≤ s.rowLen
    ∧ (∀ p ∈ s.inputs, p.rst = false) ∧ runs 19 s = .next t ∧ runs 9 s = .next u
    ∧ (∀ j v, 0 < j → j < 19 → runs j s = .next v → v.busy = true) ∧ u.phase = .emit ∧ t.phase = .emit := by
  have h1 : (nextOf (runs 9 (started (withRow bytesAA 276) 276))).map (·.phase) = some .emit := by decide +kernel
  have h2 : (nextOf (runs 19 (started (withRow bytesAA 276) 276))).map (·.phase) = some .emit := by decide +kernel
  have h3 : (nextOf (step (started (withRow bytesAA 276) 276))).all (busyUntil 18) = true := by decide +kernel
  cases hu : runs 9 (started (withRow bytesAA 276) 276) with
  | fault r => rw [hu] at h1; simp [nextOf] at h1
  | refused r => rw [hu] at h1; simp [nextOf] at h1
  | next u =>
    cases ht : runs 19 (started (withRow bytesAA 276) 276) with
    | fault r => rw [ht] at h2; simp [nextOf] at h2
    | refused r => rw [ht] at h2; simp [nextOf] at h2
    | next t =>
      rw [hu] at h1
      rw [ht] at h2
      refine ⟨_, t, u, by decide, by decide, by decide, by decide, ht, hu, ?_, by simpa [nextOf] using h1,
        by simpa [nextOf] using h2⟩
      intro j v hj hk hr
      obtain ⟨i, rfl⟩ : ∃ i, j = i + 1 := ⟨j - 1, by omega⟩
      obtain ⟨w, hst, hw⟩ := runs_succ_next hr
      rw [hst] at h3
      exact busyUntil_runs 18 w h3 i v (by omega) hw

/-- `AFrameIsAccepted`: frame A in the row, and the ports low. -/
theorem witness_frame : ∃ (s : State) (P : Payload), s.phase = .skip ∧ s.mpos + 138 ≤ s.nbits ∧ s.holdsFrame s.mpos P
    ∧ crcOk P = true ∧ ∀ p ∈ s.inputs, p.rst = false := by
  refine ⟨{ rowA with phase := .skip }, payloadA, rfl, by decide, ?_, by decide +kernel, by decide⟩
  unfold State.holdsFrame; decide +kernel

/-- `OnlyFramesAreAccepted`: from `SKIP` at frame A's preamble, seven steps that hand over a record. -/
theorem witness_accepted : ∃ s t : State, s.phase = .skip ∧ s.occursAt s.mpos ∧ runs 7 s = .next t ∧ t.sink ≠ s.sink := by
  have h : ∃ t, runs 7 { rowA with phase := .skip } = .next t ∧ t.count = 1 ∧ t.sink.length = 1 := by
    have h' : (nextOf (runs 7 { rowA with phase := .skip })).map (fun t => (t.count, t.sink.length)) = some (1, 1) := by
      decide +kernel
    cases hr : runs 7 { rowA with phase := .skip } with
    | next t => rw [hr] at h'; simp only [nextOf, Option.map_some, Option.some.injEq, Prod.mk.injEq] at h'; exact ⟨t, rfl, h'⟩
    | fault r => rw [hr] at h'; simp [nextOf] at h'
    | refused r => rw [hr] at h'; simp [nextOf] at h'
  obtain ⟨t, ht, -, hl⟩ := h
  refine ⟨{ rowA with phase := .skip }, t, rfl, ?_, ht, fun he => ?_⟩
  · unfold State.occursAt; decide
  · rw [he] at hl; exact absurd hl (by decide)

theorem witness_nonzero_byte : (1#8 : Byte) ≠ 0#8 := by decide

end Sys2Proof.Tests
end

section
/-! PROOFS. Segments of an invocation: runs of busy steps, and what an operation hands to the sink on the way. -/

namespace Sys2Proof.Machine

/-! ### Runs of busy steps -/

/-- One step of the machine, taken while busy. -/
def BusyStep (s t : State) : Prop := s.busy = true ∧ step s = .next t

/-- A chain of busy steps is a run whose states before the last are all busy. -/
theorem runs_of_busySteps {s t : State} (h : Relation.ReflTransGen BusyStep s t) :
    ∃ k, runs k s = .next t ∧ ∀ j u, j < k → runs j s = .next u → u.busy = true := by
  induction h using Relation.ReflTransGen.head_induction_on with
  | refl => exact ⟨0, rfl, fun j u hj _ => absurd hj (Nat.not_lt_zero j)⟩
  | head hstep _ ih =>
    obtain ⟨hbusy, hnext⟩ := hstep
    obtain ⟨k, hrun, hall⟩ := ih
    refine ⟨k + 1, (runs_succ_of_step hnext k).trans hrun, fun j u hj hu => ?_⟩
    cases j with
    | zero => exact next_inj.mp hu ▸ hbusy
    | succ j => exact hall j u (by omega) (runs_succ_of_step hnext j ▸ hu)

/-! ### Host duties while busy -/

/-- What a host that keeps its duties guarantees during an invocation: the latched length is one the row has, and
`rst` stays low (R184, R192). -/
structure Running (s : State) : Prop where
  in_row : s.nbits ≤ s.rowLen
  quiet : ∀ p ∈ s.inputs, p.rst = false

/-- A host that never raises `rst` does not raise it in the coming step. -/
theorem port_rst_of_quiet {s : State} (h : ∀ p ∈ s.inputs, p.rst = false) : s.port.rst = false := by
  unfold State.port
  cases hi : s.inputs with
  | nil => rfl
  | cons p ps => exact h p (by simp [hi])

/-- With `rst` low a working phase runs its own operation, whatever `start` says (R12, R187). -/
theorem step_of_working {s : State} {p : Phase} (hrst : s.port.rst = false) (hp : s.phase = p)
    (hw : Phase.isRest p = false) : step s = exec (phaseInstr p) s.popPort := by
  rcases step_cases s with ⟨h, -⟩ | ⟨-, hstep⟩
  · exact absurd h (by simp [hrst])
  · rcases fetch_cases s with ⟨h, -⟩ | ⟨-, hfetch⟩
    · exact absurd h (by simp [hp, hw])
    · rw [hstep, hfetch, hp]

/-! ### What is handed over -/

/-- `t` is a later state of the same invocation than `s`, and `rs` are the records handed over between them, each
counted (R41, R151, R186). -/
structure Handed (s t : State) (rs : List FrameRecord) : Prop where
  mem : t.mem = s.mem
  rowLen : t.rowLen = s.rowLen
  nbits : t.nbits = s.nbits
  inputs : t.inputs <:+ s.inputs
  sink : t.sink = s.sink ++ rs
  count : t.count = s.count + rs.length

theorem Handed.trans {s t u : State} {a b : List FrameRecord} (h : Handed s t a) (h' : Handed t u b) :
    Handed s u (a ++ b) where
  mem := h'.mem.trans h.mem
  rowLen := h'.rowLen.trans h.rowLen
  nbits := h'.nbits.trans h.nbits
  inputs := h'.inputs.trans h.inputs
  sink := by rw [h'.sink, h.sink, List.append_assoc]
  count := by rw [h'.count, h.count, List.length_append, Nat.add_assoc]

theorem Handed.running {s t : State} {rs : List FrameRecord} (h : Handed s t rs) (hr : Running s) : Running t where
  in_row := by rw [h.nbits, h.rowLen]; exact hr.in_row
  quiet := fun p hp => hr.quiet p (h.inputs.subset hp)

/-- Busy steps lead from `s` to `t` and hand over `rs`. -/
structure Yields (s t : State) (rs : List FrameRecord) : Prop where
  path : Relation.ReflTransGen BusyStep s t
  handed : Handed s t rs

theorem Yields.trans {s t u : State} {a b : List FrameRecord} (h : Yields s t a) (h' : Yields t u b) :
    Yields s u (a ++ b) := ⟨h.path.trans h'.path, h.handed.trans h'.handed⟩

theorem Yields.running {s t : State} {rs : List FrameRecord} (h : Yields s t rs) (hr : Running s) : Running t :=
  h.handed.running hr

/-- One step of a working phase, its operation handing over `rs`. -/
theorem Running.yields_step {s t : State} {p : Phase} {rs : List FrameRecord} (hr : Running s) (hp : s.phase = p)
    (hw : Phase.isRest p = false) (he : exec (phaseInstr p) s.popPort = .next t) (hh : Handed s t rs) :
    Yields s t rs where
  path := .single ⟨by simp [State.busy, hp, hw], (step_of_working (port_rst_of_quiet hr.quiet) hp hw).trans he⟩
  handed := hh

/-! ### What the operations leave alone -/

/-- No operation of a working phase but `EMIT` touches the row, the latched length, the ports, the sink or
`count`. -/
theorem exec_phase_frame {s t : State} {p : Phase} (hw : Phase.isRest p = false) (hemit : p ≠ .emit)
    (h : exec (phaseInstr p) s = .next t) : t.mem = s.mem ∧ t.rowLen = s.rowLen ∧ t.nbits = s.nbits
      ∧ t.inputs = s.inputs ∧ t.sink = s.sink ∧ t.count = s.count := by
  cases p with
  | idle => simp [Phase.isRest] at hw
  | done => simp [Phase.isRest] at hw
  | emit => exact absurd rfl hemit
  | search =>
    have h : execSearch s = .next t := h
    unfold execSearch at h
    split at h
    · cases h; simp
    · cases h; simp
    · cases h
  | guard =>
    obtain rfl := next_inj.mp h
    cases s.guardOk <;> simp
  | skip => obtain rfl := next_inj.mp h; simp
  | mdec =>
    rcases execMdec_spec s with ⟨u, k, hu, -⟩ | ⟨hu, -⟩
    · obtain rfl := next_inj.mp (hu.symm.trans h); simp
    · cases hu.symm.trans h
  | lenchk =>
    obtain rfl := next_inj.mp h
    cases s.lengthOk <;> simp
  | postchk =>
    obtain ⟨ok, -, rfl⟩ := Option.map_eq_some_iff.mp (orFault_eq_next.mp h)
    cases ok <;> simp [State.afterPost]
  | crcchk =>
    obtain rfl := next_inj.mp h
    cases crcOk s.P <;> simp
  | extract => obtain rfl := next_inj.mp h; simp
  | resume => obtain rfl := next_inj.mp h; simp
  | finish => obtain rfl := next_inj.mp h; simp

/-- One step of a working phase other than `EMIT` hands over nothing. -/
theorem Running.yields_silent {s t : State} {p : Phase} (hr : Running s) (hp : s.phase = p)
    (hw : Phase.isRest p = false) (hemit : p ≠ .emit) (he : exec (phaseInstr p) s.popPort = .next t) :
    Yields s t [] := by
  obtain ⟨hmem, hrow, hnbits, hinputs, hsink, hcount⟩ := exec_phase_frame hw hemit he
  refine hr.yields_step hp hw he ⟨hmem, hrow, hnbits, ?_, by simpa using hsink, hcount⟩
  rw [hinputs]
  exact List.tail_suffix _

end Sys2Proof.Machine
end

section
/-! PROOFS. The machine's operations and the reference's functions (R7) answer the same: the search, the decoder,
the three tests of a candidate, and the record. -/

namespace Sys2Proof.Machine

/-! ### The search -/

/-- The window test is `Match8` (R81) wherever the row has the bits. -/
theorem match8_eq_refMatch {s : State} (hrow : s.nbits ≤ s.rowLen) (p : Nat) :
    s.match8 p = some (refMatch (Memory.bit s.mem) s.nbits p) := by
  have htrue : s.match8 p = some true ↔ refMatch (Memory.bit s.mem) s.nbits p = true := by
    rw [match8_eq_true]
    simp only [refMatch, Bool.and_eq_true, decide_eq_true_eq, List.all_eq_true, List.mem_range, beq_iff_eq]
    exact ⟨fun ⟨h, _, hbits⟩ => ⟨h, hbits⟩, fun ⟨h, hbits⟩ => ⟨h, le_trans h hrow, hbits⟩⟩
  cases hm : s.match8 p with
  | none => have := match8_eq_none.mp hm; omega
  | some b =>
    rw [hm, Option.some.injEq] at htrue
    rw [Option.some.injEq, Bool.eq_iff_iff]
    exact htrue

/-- A scan of `n` windows finds the first of them that matches. -/
theorem searchFrom_eq_find {s : State} (hrow : s.nbits ≤ s.rowLen) (n p : Nat) : s.searchFrom n p =
    ((List.range' p n).find? (refMatch (Memory.bit s.mem) s.nbits)).elim .notFound .found := by
  induction n generalizing p with
  | zero => rfl
  | succ n ih =>
    rw [State.searchFrom, match8_eq_refMatch hrow, List.range'_succ, List.find?_cons]
    cases refMatch (Memory.bit s.mem) s.nbits p with
    | true => rfl
    | false => exact ih (p + 1)

/-- The search is the reference's (R80). -/
theorem search_eq_refSearch {s : State} (hrow : s.nbits ≤ s.rowLen) (c : Nat) :
    s.search c = (refSearch (Memory.bit s.mem) s.nbits c).elim .notFound .found :=
  searchFrom_eq_find hrow _ _

/-- An occurrence lies at or after the cursor, and its window in the buffer. -/
theorem refSearch_bounds {bit : Nat → Bool} {nbits c p : Nat} (h : refSearch bit nbits c = some p) :
    c ≤ p ∧ p + 8 ≤ nbits := by
  have hmatch : refMatch bit nbits p = true := List.find?_some h
  have hmem := List.mem_range'_1.mp (List.mem_of_find?_eq_some h)
  simp only [refMatch, Bool.and_eq_true, decide_eq_true_eq] at hmatch
  exact ⟨hmem.1, hmatch.1⟩

/-! ### The decoder -/

/-- The length of the longest prefix of `0, …, n - 1` on which `p` holds. -/
theorem length_takeWhile_range {p : Nat → Bool} {n k : Nat} (hk : k ≤ n) (hall : ∀ j, j < k → p j = true)
    (hstop : k < n → p k = false) : ((List.range n).takeWhile p).length = k := by
  have hidx : (List.range n).findIdx (fun a => !p a) = k := by
    rcases Nat.lt_or_eq_of_le hk with hlt | rfl
    · rw [List.findIdx_eq (by simpa using hlt)]
      simpa [hstop hlt] using hall
    · rw [List.findIdx_eq_length.mpr (by simpa using hall), List.length_range]
  rw [List.takeWhile_eq_take_findIdx_not, hidx, List.length_take, List.length_range, Nat.min_eq_left hk]

/-- `k` valid pairs, ended by an invalid one or by the end of the body, are all the reference counts (R113). -/
theorem refValid_eq {bit : Nat → Bool} {d k : Nat} (hk : k ≤ 64)
    (hvalid : ∀ j, j < k → bit (d + 2 * j) ≠ bit (d + 2 * j + 1))
    (hstop : k < 64 → bit (d + 2 * k) = bit (d + 2 * k + 1)) : refValid bit d = k :=
  length_takeWhile_range hk (fun j hj => bne_iff_ne.mpr (hvalid j hj))
    (fun h => bne_eq_false_iff_eq.mpr (hstop h))

theorem refDcur_of_full {bit : Nat → Bool} {d : Nat} (h : refValid bit d = 64) : refDcur bit d = d + 128 := by
  rw [refDcur, if_pos h]; rfl

theorem refDcur_of_short {bit : Nat → Bool} {d : Nat} (h : refValid bit d ≠ 64) :
    refDcur bit d = d + 2 * (refValid bit d + 1) := by
  rw [refDcur, if_neg h]

theorem refValid_le (bit : Nat → Bool) (d : Nat) : refValid bit d ≤ 64 :=
  le_trans (List.takeWhile_prefix _).length_le (by simp)

/-- The decoder's cursor ends behind the preamble and inside the body (R34 (e)). -/
theorem refDcur_bounds (bit : Nat → Bool) (d : Nat) : d ≤ refDcur bit d ∧ refDcur bit d ≤ d + 128 := by
  have hle := refValid_le bit d
  by_cases h : refValid bit d = 64
  · rw [refDcur_of_full h]; omega
  · rw [refDcur_of_short h]; omega

/-- Bits shifted into a byte one after the other stand in it first bit highest. -/
theorem getLsbD_foldl_shiftConcat (f : Nat → Bool) (n : Nat) {i : Nat} (hi : i < 8) :
    ((List.range n).foldl (fun v j => v.shiftConcat (f j)) 0#8).getLsbD i = (decide (i < n) && f (n - 1 - i)) := by
  induction n generalizing i with
  | zero => simp
  | succ n ih =>
    rw [List.range_succ, List.foldl_append, List.foldl_cons, List.foldl_nil, BitVec.getLsbD_shiftConcat]
    cases i with
    | zero => simp
    | succ i =>
      rw [if_neg (by omega), Nat.add_sub_cancel, ih (by omega)]
      simp [hi, show n - 1 - i = n - (i + 1) by omega]

/-- Bit `7 - j` of the reference's byte `i` is decoded bit `8 i + j` (R112). -/
theorem refByte_bit (mc : McOne) (bit : Nat → Bool) (d i : Nat) {j : Nat} (hj : j < 8) :
    (refByte mc bit d i).getLsbD (7 - j)
      = mdecBit mc (bit (d + 2 * (8 * i + j))) (bit (d + 2 * (8 * i + j) + 1)) := by
  rw [refByte, getLsbD_foldl_shiftConcat _ 8 (by omega)]
  simp [show 7 - (7 - j) = j by omega, show 7 - j < 8 by omega]

/-- A payload whose 64 bits are the decoded bits of the body has the reference's bytes. -/
theorem pbyte_eq_refByte {mc : McOne} {bit : Nat → Bool} {d : Nat} {P : Payload}
    (h : ∀ k, k < 64 → pbit P k = mdecBit mc (bit (d + 2 * k)) (bit (d + 2 * k + 1))) {i : Nat} (hi : i < 8) :
    pbyte P i = refByte mc bit d i := by
  refine byte_ext fun j hj => ?_
  have hbit := h (8 * i + j) (by omega)
  rw [pbit, show (8 * i + j) / 8 = i by omega, show (8 * i + j) % 8 = j by omega] at hbit
  rw [hbit, refByte_bit mc bit d i hj]

/-- The decoder has run on the body of the candidate at `p` and stands where the reference says (R110 to R114). -/
structure Decoded (s : State) (p : Nat) : Prop where
  cursor : s.cursor = p + 8
  ndec : s.ndec = refValid (Memory.bit s.mem) (p + 8)
  dcur : s.dcur = refDcur (Memory.bit s.mem) (p + 8)
  bytes : s.ndec = 64 → ∀ i, i < 8 → pbyte s.P i = refByte Config.mcOne (Memory.bit s.mem) (p + 8) i

/-- `MDEC` on a body that lies in the buffer decodes it as the reference does. -/
theorem execMdec_decoded {s : State} {p : Nat} (hrow : s.nbits ≤ s.rowLen) (hcursor : s.cursor = p + 8)
    (hdcur : s.dcur = p + 8) (hfit : p + 136 ≤ s.nbits) :
    ∃ t, execMdec s = .next t ∧ t.phase = .lenchk ∧ Decoded t p := by
  rcases execMdec_spec s with ⟨u, k, hu, hk, -, hvalid, hstop, hbits⟩ | ⟨-, k, hk, hin, hout, -⟩
  · simp only [hdcur] at hvalid hstop hbits
    have hend : k = 64 ∧ u.dcur = p + 8 + 2 * k ∨ k < 64 ∧ u.dcur = p + 8 + 2 * k + 2
        ∧ Memory.bit s.mem (p + 8 + 2 * k) = Memory.bit s.mem (p + 8 + 2 * k + 1) := by
      rcases hstop with h | ⟨hlt, -, -, h⟩ | ⟨hlt, hshort, -⟩
      · exact .inl h
      · exact .inr ⟨hlt, h⟩
      · omega
    have hrv : refValid (Memory.bit s.mem) (p + 8) = k :=
      refValid_eq hk (fun j hj => (hvalid j hj).2.2) fun hlt => by
        rcases hend with ⟨h, -⟩ | ⟨-, -, h⟩
        · omega
        · exact h
    refine ⟨_, hu, rfl, hcursor, hrv.symm, ?_, fun hk64 i hi => pbyte_eq_refByte (fun j hj => ?_) hi⟩
    · rcases hend with ⟨h, hd⟩ | ⟨h, hd, -⟩
      · rw [refDcur_of_full (hrv.trans h)]
        simp only
        omega
      · rw [refDcur_of_short (hrv.trans_ne h.ne), hrv]
        simp only
        omega
    · have hk64 : k = 64 := hk64
      simpa [hk64, hj] using hbits (le_refl _) j hj
  · omega

/-! ### The tests of a candidate -/

/-- Both postamble bits lie in the buffer and equal the last decoded bit (R120 to R122). -/
abbrev State.postMatches (s : State) : Prop :=
  s.dcur + 2 ≤ s.nbits ∧ Memory.bit s.mem s.dcur = s.lastBit ∧ Memory.bit s.mem (s.dcur + 1) = s.lastBit

theorem postOk_eq {s : State} (hrow : s.nbits ≤ s.rowLen) : s.postOk = some (decide s.postMatches) := by
  rcases postOk_spec s with ⟨hout, h⟩ | ⟨hin, -, h⟩ | ⟨hin, hout, -⟩
  · rw [h, decide_eq_false (by simp [State.postMatches]; omega)]
  · simp [h, State.postMatches, hin]
  · omega

/-- The record of the payload registers is the one `EXTRACT` builds and `EMIT` hands over (R135 to R142, R150). -/
theorem refRecord_pbyte (P : Payload) : refRecord (pbyte P) = (extractRecord P).toSink := by
  have hid : ∀ a b c : Byte, ((a ++ b ++ c).setWidth 32).toNat = a.toNat * 2 ^ 16 + b.toNat * 2 ^ 8 + c.toNat := by
    intro a b c
    have ha := a.isLt
    have hb := b.isLt
    have hc := c.isLt
    rw [BitVec.toNat_setWidth, BitVec.toNat_append, BitVec.toNat_append, ← Nat.shiftLeft_add_eq_or_of_lt hb,
      ← Nat.shiftLeft_add_eq_or_of_lt hc, Nat.shiftLeft_eq, Nat.shiftLeft_eq]
    omega
  have hbinding : ∀ f d : Byte, (bindingCountdown f d).toNat = if f.getLsbD 0 then d.toNat else 0 := by
    intro f d
    exact apply_ite BitVec.toNat _ _ _
  simp only [refRecord, extractRecord, recordOf, RecordReg.toSink, hbinding]
  congr 1
  exact (hid _ _ _).symm

/-- The three tests the machine makes of a decoded candidate (R115, R120, R126). -/
abbrev State.accepts (s : State) : Prop := s.ndec = 64 ∧ s.postMatches ∧ crcOk s.P = true

/-- What the reference makes of a candidate, read off the machine's state after `MDEC`. -/
theorem refCandidate_of_decoded {s : State} {p : Nat} (h : Decoded s p) :
    refCandidate Config.mcOne (Memory.bit s.mem) s.nbits p
      = if s.accepts then some (extractRecord s.P).toSink else none := by
  rw [refCandidate_eq]
  simp only
  by_cases hn : s.ndec = 64
  · have hfull := h.ndec.symm.trans hn
    have hdcur : s.dcur = p + 136 := h.dcur.trans (refDcur_of_full hfull)
    have hbytes : ∀ i, i < 8 → refByte Config.mcOne (Memory.bit s.mem) (p + 8) i = pbyte s.P i :=
      fun i hi => (h.bytes hn i hi).symm
    have hrecord : refRecord (refByte Config.mcOne (Memory.bit s.mem) (p + 8)) = refRecord (pbyte s.P) := by
      simp [refRecord, hbytes]
    have hcrc : crcOk s.P = true ↔ crc8 [pbyte s.P 0, pbyte s.P 1, pbyte s.P 2, pbyte s.P 3, pbyte s.P 4,
        pbyte s.P 5, pbyte s.P 6] = pbyte s.P 7 := by
      simp [crcOk, payloadCrc, pdata_eq]
    rw [hrecord, refRecord_pbyte]
    refine if_congr ?_ rfl rfl
    simp [State.accepts, State.postMatches, State.lastBit, hcrc, hfull, hn, hdcur, hbytes, and_assoc]
  · rw [if_neg (fun hc => hn (h.ndec.trans hc.1)), if_neg (fun hc => hn hc.1)]

end Sys2Proof.Machine
end

section
/-! PROOFS. An invocation is R7's `Run`: each segment of the phase graph against the reference, then the scan by
induction on the number of candidates left. -/

namespace Sys2Proof.Machine

/-! ### The segments of the phase graph -/

/-- `RESUME`: back to the scan, at the cursor `RESUME_AT` names (R100, R101). -/
theorem resume_segment {s : State} (hr : Running s) (hp : s.phase = .resume) :
    ∃ t, Yields s t [] ∧ t.phase = .search ∧ t.cursor = resumeCursor Config.resumeAt s.cursor s.dcur :=
  ⟨_, hr.yields_silent hp rfl (by decide) rfl, rfl, rfl⟩

/-- `FINISH`: nothing more is handed over (R102). -/
theorem finish_segment {s : State} (hr : Running s) (hp : s.phase = .finish) : ∃ t, Yields s t [] ∧ t.phase = .done :=
  ⟨_, hr.yields_silent hp rfl (by decide) rfl, rfl⟩

/-- `SEARCH` with no occurrence left (R80, R92). -/
theorem search_segment_none {s : State} (hr : Running s) (hp : s.phase = .search)
    (hnone : refSearch (Memory.bit s.mem) s.nbits s.cursor = none) : ∃ t, Yields s t [] ∧ t.phase = .finish := by
  have hsearch : s.popPort.search s.popPort.cursor = .notFound := by
    rw [search_eq_refSearch (s := s.popPort) hr.in_row]
    simp [hnone]
  refine ⟨_, hr.yields_silent hp rfl (by decide) (t := s.popPort.takeNoMatch) ?_, rfl⟩
  show execSearch s.popPort = _
  rw [execSearch, hsearch]

/-- `SEARCH` takes the reference's occurrence (R80). -/
theorem search_segment_some {s : State} {p : Nat} (hr : Running s) (hp : s.phase = .search)
    (hsome : refSearch (Memory.bit s.mem) s.nbits s.cursor = some p) :
    ∃ t, Yields s t [] ∧ t.phase = .guard ∧ t.mpos = p := by
  have hsearch : s.popPort.search s.popPort.cursor = .found p := by
    rw [search_eq_refSearch (s := s.popPort) hr.in_row]
    simp [hsome]
  refine ⟨_, hr.yields_silent hp rfl (by decide) (t := s.popPort.takeMatch p) ?_, rfl, rfl⟩
  show execSearch s.popPort = _
  rw [execSearch, hsearch]

/-- `GUARD` on a body that lies in the buffer, or does not (R93). -/
theorem guard_segment {s : State} (hr : Running s) (hp : s.phase = .guard) :
    ∃ t, Yields s t [] ∧ t.phase = (if s.mpos + 136 ≤ s.nbits then .skip else .finish) ∧ t.mpos = s.mpos := by
  refine ⟨_, hr.yields_silent hp rfl (by decide) rfl, ?_⟩
  by_cases h : s.mpos + 136 ≤ s.nbits <;> simp [State.guardOk, h]

/-- `SKIP`, `MDEC`: a candidate whose body lies in the buffer, decoded (R94, R110). -/
theorem decode_segment {s : State} (hr : Running s) (hp : s.phase = .skip) (hfit : s.mpos + 136 ≤ s.nbits) :
    ∃ t, Yields s t [] ∧ t.phase = .lenchk ∧ Decoded t s.mpos := by
  have hskip : Yields s (s.popPort.freshCandidate.goto .mdec) [] := hr.yields_silent hp rfl (by decide) rfl
  have hr' := hskip.running hr
  obtain ⟨t, hmdec, hphase, hdec⟩ := execMdec_decoded
    (s := (s.popPort.freshCandidate.goto .mdec).popPort) hr'.in_row rfl rfl hfit
  exact ⟨t, hskip.trans (hr'.yields_silent (p := .mdec) rfl rfl (by decide) hmdec), hphase, hdec⟩

/-- `s` is left for `RESUME` with its cursors where they were, `rs` handed over. -/
def EndsCandidate (s : State) (rs : List FrameRecord) : Prop :=
  ∃ t, Yields s t rs ∧ t.phase = .resume ∧ t.cursor = s.cursor ∧ t.dcur = s.dcur

/-- A segment that keeps the cursors, before the end of a candidate. -/
theorem EndsCandidate.after {s t : State} {a b : List FrameRecord} (h : EndsCandidate t b) (hseg : Yields s t a)
    (hcursor : t.cursor = s.cursor) (hdcur : t.dcur = s.dcur) : EndsCandidate s (a ++ b) := by
  obtain ⟨u, hu, hphase, hc, hd⟩ := h
  exact ⟨u, hseg.trans hu, hphase, hc.trans hcursor, hd.trans hdcur⟩

/-- `EXTRACT`, `EMIT`: the payload's record is handed over (R135, R150). -/
theorem extract_segment {s : State} (hr : Running s) (hp : s.phase = .extract) :
    EndsCandidate s [(extractRecord s.P).toSink] := by
  have hextract : Yields s (s.popPort.latchRecord (extractRecord s.P)) [] :=
    hr.yields_silent hp rfl (by decide) rfl
  have hemit : Yields (s.popPort.latchRecord (extractRecord s.P)) _ [(extractRecord s.P).toSink] :=
    (hextract.running hr).yields_step (p := .emit) rfl rfl rfl
      ⟨rfl, rfl, rfl, List.tail_suffix _, rfl, rfl⟩
  exact ⟨_, hextract.trans hemit, rfl, rfl, rfl⟩

/-- From `CRCCHK` on (R126). -/
theorem crcchk_segment {s : State} (hr : Running s) (hp : s.phase = .crcchk) :
    EndsCandidate s (if crcOk s.P = true then [(extractRecord s.P).toSink] else []) := by
  by_cases hok : crcOk s.P = true
  · have hpass : Yields s (State.goto { s.popPort with crc := payloadCrc s.P } .extract) [] :=
      hr.yields_silent hp rfl (by decide) (congrArg _ (if_pos hok))
    rw [if_pos hok]
    exact (extract_segment (hpass.running hr) rfl).after hpass rfl rfl
  · have hfail : Yields s (State.raiseReject { s.popPort with crc := payloadCrc s.P } .crc) [] :=
      hr.yields_silent hp rfl (by decide) (congrArg _ (if_neg hok))
    rw [if_neg hok]
    exact ⟨_, hfail, rfl, rfl, rfl⟩

/-- From `POSTCHK` on (R120). -/
theorem postchk_segment {s : State} (hr : Running s) (hp : s.phase = .postchk) :
    EndsCandidate s (if s.postMatches ∧ crcOk s.P = true then [(extractRecord s.P).toSink] else []) := by
  have hexec : execPostchk s.popPort = .next (s.popPort.afterPost (decide s.postMatches)) := by
    rw [execPostchk, postOk_eq (s := s.popPort) hr.in_row]
    rfl
  by_cases hok : s.postMatches
  · have hpass : Yields s (s.popPort.goto .crcchk) [] :=
      hr.yields_silent hp rfl (by decide) (hexec.trans (by rw [decide_eq_true hok]; rfl))
    rw [if_congr (and_iff_right hok) rfl rfl]
    exact (crcchk_segment (hpass.running hr) rfl).after hpass rfl rfl
  · have hfail : Yields s (s.popPort.raiseReject .post) [] :=
      hr.yields_silent hp rfl (by decide) (hexec.trans (by rw [decide_eq_false hok]; rfl))
    rw [if_neg fun h => hok h.1]
    exact ⟨_, hfail, rfl, rfl, rfl⟩

/-- From `LENCHK` on: a decoded candidate is handed over exactly when it passes the three tests (R115). -/
theorem lenchk_segment {s : State} (hr : Running s) (hp : s.phase = .lenchk) :
    EndsCandidate s (if s.accepts then [(extractRecord s.P).toSink] else []) := by
  by_cases hok : s.ndec = 64
  · have hpass : Yields s (s.popPort.goto .postchk) [] :=
      hr.yields_silent hp rfl (by decide) (congrArg _ (if_pos (decide_eq_true hok)))
    rw [if_congr (and_iff_right hok) rfl rfl]
    exact (postchk_segment (hpass.running hr) rfl).after hpass rfl rfl
  · have hfail : Yields s (s.popPort.raiseReject .len) [] :=
      hr.yields_silent hp rfl (by decide) (congrArg _ (if_neg (mt of_decide_eq_true hok)))
    rw [if_neg fun h => hok h.1]
    exact ⟨_, hfail, rfl, rfl, rfl⟩

/-- One candidate whose body lies in the buffer, from `SKIP` back to `SEARCH`: the reference's record, if any, and
the reference's cursor (R7). -/
theorem candidate_segment {s : State} (hr : Running s) (hp : s.phase = .skip) (hfit : s.mpos + 136 ≤ s.nbits) :
    ∃ t, Yields s t (refCandidate Config.mcOne (Memory.bit s.mem) s.nbits s.mpos).toList ∧ t.phase = .search
      ∧ t.cursor = resumeCursor Config.resumeAt (s.mpos + 8) (refDcur (Memory.bit s.mem) (s.mpos + 8)) := by
  obtain ⟨u, hdecode, hlenchk, hdec⟩ := decode_segment hr hp hfit
  obtain ⟨v, hjudge, hresume, hcursor, hdcur⟩ := lenchk_segment (hdecode.running hr) hlenchk
  have hr' := hjudge.running (hdecode.running hr)
  obtain ⟨t, hback, hsearch, hat⟩ := resume_segment hr' hresume
  have hrecords : (if u.accepts then [(extractRecord u.P).toSink] else [])
      = (refCandidate Config.mcOne (Memory.bit s.mem) s.nbits s.mpos).toList := by
    rw [← hdecode.handed.mem, ← hdecode.handed.nbits, refCandidate_of_decoded hdec]
    split <;> rfl
  refine ⟨t, ?_, hsearch, ?_⟩
  · simpa [hrecords] using (hdecode.trans hjudge).trans hback
  · rw [hat, hcursor, hdcur, hdec.cursor, hdec.dcur, hdecode.handed.mem]

/-! ### The scan -/

/-- Either value of `RESUME_AT` resumes behind the preamble and inside the body (R100, R101). -/
theorem resumeCursor_bounds (r : ResumeAt) (bit : Nat → Bool) (d : Nat) :
    d ≤ resumeCursor r d (refDcur bit d) ∧ resumeCursor r d (refDcur bit d) ≤ d + 128 := by
  cases r with
  | afterPreamble => exact ⟨le_refl _, Nat.le_add_right _ _⟩
  | afterDecode => exact refDcur_bounds bit d

/-- From `SEARCH` to `DONE` the machine hands over the records of R7's loop, if the loop may take as many candidates
as there are windows left. -/
theorem scan_yields_refLoop (n : Nat) {s : State} (hr : Running s) (hp : s.phase = .search)
    (hcursor : s.cursor ≤ s.nbits) (hfuel : s.nbits < s.cursor + n) :
    ∃ t, t.phase = .done ∧ Yields s t
      (refLoop Config.mcOne Config.resumeAt (Memory.bit s.mem) s.nbits n s.cursor) := by
  induction n generalizing s with
  | zero => omega
  | succ n ih =>
    rw [refLoop]
    cases hsearch : refSearch (Memory.bit s.mem) s.nbits s.cursor with
    | none =>
      obtain ⟨u, hu, hfinish⟩ := search_segment_none hr hp hsearch
      obtain ⟨t, ht, hdone⟩ := finish_segment (hu.running hr) hfinish
      exact ⟨t, hdone, hu.trans ht⟩
    | some p =>
      obtain ⟨hle, -⟩ := refSearch_bounds hsearch
      obtain ⟨u, hu, hguard, hmpos⟩ := search_segment_some hr hp hsearch
      obtain ⟨v, hv, hphase, hmpos'⟩ := guard_segment (hu.running hr) hguard
      have hsv : Yields s v [] := hu.trans hv
      have hrv := hsv.running hr
      rw [hmpos, hu.handed.nbits] at hphase
      by_cases hfit : p + 136 ≤ s.nbits
      · have hvp : v.mpos = p := hmpos'.trans hmpos
        obtain ⟨w, hw, hagain, hat⟩ := candidate_segment hrv (by simpa [hfit] using hphase)
          (by rw [hvp, hsv.handed.nbits]; exact hfit)
        rw [hvp, hsv.handed.mem] at hat
        rw [hvp, hsv.handed.mem, hsv.handed.nbits] at hw
        have hsw : Yields s w _ := hsv.trans hw
        obtain ⟨hlow, hhigh⟩ := resumeCursor_bounds Config.resumeAt (Memory.bit s.mem) (p + 8)
        obtain ⟨t, hdone, ht⟩ := ih (hsw.running hr) hagain
          (by rw [hat, hsw.handed.nbits]; omega) (by rw [hat, hsw.handed.nbits]; omega)
        rw [hat, hsw.handed.mem, hsw.handed.nbits] at ht
        exact ⟨t, hdone, by simpa [hfit] using hsw.trans ht⟩
      · obtain ⟨t, ht, hdone⟩ := finish_segment hrv (by simpa [hfit] using hphase)
        exact ⟨t, hdone, by simpa [hfit] using hsv.trans ht⟩

/-! ### From `START` on -/

/-- The ports of a coming step with `start` high were given by the host. -/
theorem port_mem_inputs {s : State} (h : s.port.start = true) : s.port ∈ s.inputs := by
  cases hi : s.inputs with
  | nil => simp [State.port, hi, PortIn.low] at h
  | cons p ps => simp [State.port, hi]

/-- A rest phase that sees `start`, and not `rst`, re-initialises the core (R90). -/
theorem step_of_start {s : State} (hbusy : s.busy = false) (hrst : s.port.rst = false)
    (hstart : s.port.start = true) : step s = .next (s.popPort.startInvocation s.port.nbits) := by
  have hrest : Phase.isRest s.phase = true := by simpa [State.busy] using hbusy
  rcases step_cases s with ⟨h, -⟩ | ⟨-, hstep⟩
  · exact absurd h (by simp [hrst])
  · rcases fetch_cases s with ⟨-, -, hfetch⟩ | ⟨h, -⟩
    · rw [hstep, hfetch]
      exact if_pos hrest
    · exact absurd ⟨hrest, hstart⟩ h

/-- A host that keeps its duties starts an invocation on a row that has the bits it names. -/
theorem running_startInvocation {s : State} (hstart : s.port.start = true) (hok : s.hostOk) :
    Running (s.popPort.startInvocation s.port.nbits) where
  in_row := (hok.2 _ (port_mem_inputs hstart)).2 hstart
  quiet := fun p hp => (hok.2 p (List.mem_of_mem_tail hp)).1

/-- Settles O50: `START` enters the scan of `scan_yields_refLoop` at cursor 0 with `count` 0, and that scan is
R7's `Run`. -/
theorem invocationComputesRun : Obligations.InvocationComputesRun := by
  intro s hbusy hstart hok
  have hfirst := step_of_start hbusy (port_rst_of_quiet fun p hp => (hok.2 p hp).1) hstart
  obtain ⟨t, hdone, hpath, hhanded⟩ := scan_yields_refLoop (s.port.nbits + 1) (running_startInvocation hstart hok)
    rfl (Nat.zero_le _) (by simp)
  obtain ⟨k, hrun, hall⟩ := runs_of_busySteps hpath
  refine ⟨k + 1, t, Nat.succ_pos k, (runs_succ_of_step hfirst k).trans hrun, hdone, fun j u hj hjk hu => ?_,
    hhanded.sink, hhanded.count.trans (Nat.zero_add _)⟩
  obtain ⟨i, rfl⟩ := Nat.exists_eq_add_of_lt hj
  rw [Nat.zero_add] at hjk hu
  exact hall i u (by omega) (runs_succ_of_step hfirst i ▸ hu)

end Sys2Proof.Machine
end

section
/-! PROOFS. The status outputs, and what an invocation takes over from before it. No operation reads the sink, so
records that already stand there change nothing but the sink's front: this is an equation for every operation, every
step and every run. -/

namespace Sys2Proof.Machine

/-! ### The status outputs -/

/-- The rest phases are the two at the ends of R12's table. -/
theorem isRest_eq_false_iff_code (p : Phase) :
    Phase.isRest p = false ↔ 1 ≤ (Phase.code p).toNat ∧ (Phase.code p).toNat ≤ 11 := by
  cases p <;> decide

theorem busy_eq_true {s : State} : s.busy = true ↔ Phase.isRest s.phase = false := by simp [State.busy]

theorem done_eq_true {s : State} : s.done = true ↔ s.phase = .done := by simp [State.done]

/-- Settles O39: `busy` is `isRest` negated, and the codes of the phases that are not at rest are 1 to 11. -/
theorem statusOutputsFollowPhase : Obligations.StatusOutputsFollowPhase := fun s =>
  ⟨busy_eq_true.trans (isRest_eq_false_iff_code s.phase), done_eq_true, if_congr done_eq_true rfl rfl⟩

/-! ### Outcomes under a change of the state -/

/-- The outcome with `f` applied to the next state, if there is one. -/
def onNext (f : State → State) : Result → Result
  | .next s => .next (f s)
  | .fault r => .fault r
  | .refused r => .refused r

theorem onNext_eq_next {f : State → State} {o : Result} {t : State} :
    onNext f o = .next t ↔ ∃ s, o = .next s ∧ f s = t := by
  cases o <;> simp [onNext]

theorem orFault_map (f : State → State) (o : Option State) : orFault (o.map f) = onNext f (orFault o) := by
  cases o <;> rfl

/-! ### Records that stood in the sink before -/

/-- The same core with the records `rs` in its sink ahead of those it holds. -/
def State.behind (rs : List FrameRecord) (s : State) : State := { s with sink := rs ++ s.sink }

@[simp] theorem behind_dcur (rs : List FrameRecord) (s : State) : (s.behind rs).dcur = s.dcur := rfl

@[simp] theorem behind_nbits (rs : List FrameRecord) (s : State) : (s.behind rs).nbits = s.nbits := rfl

@[simp] theorem behind_sink (rs : List FrameRecord) (s : State) : (s.behind rs).sink = rs ++ s.sink := rfl

@[simp] theorem behind_inputs (rs : List FrameRecord) (s : State) : (s.behind rs).inputs = s.inputs := rfl

@[simp] theorem behind_bare (rs : List FrameRecord) (s : State) : (s.behind rs).bare = s.bare := rfl

theorem ite_behind (rs : List FrameRecord) (c : Prop) [Decidable c] (s t : State) :
    (if c then s.behind rs else t.behind rs) = (if c then s else t).behind rs :=
  (apply_ite (State.behind rs) c s t).symm

theorem match8_behind (rs : List FrameRecord) (s : State) (p : Nat) : (s.behind rs).match8 p = s.match8 p := by
  unfold State.match8
  rw [memRead_congr (s := s) (t := s.behind rs) rfl rfl]
  rfl

theorem searchFrom_behind (rs : List FrameRecord) (s : State) (n p : Nat) :
    (s.behind rs).searchFrom n p = s.searchFrom n p := by
  induction n generalizing p with
  | zero => rfl
  | succ n ih => simp only [State.searchFrom, match8_behind, ih]

/-- The decoder's loop reads the row and its own cursors only. -/
theorem mdecLoop_behind (rs : List FrameRecord) (n : Nat) (s : State) :
    mdecLoop n (s.behind rs) = (mdecLoop n s).map (State.behind rs) := by
  induction n generalizing s with
  | zero => rfl
  | succ n ih =>
    unfold mdecLoop
    simp only [memRead_congr (s := s) (t := s.behind rs) rfl rfl, behind_dcur, behind_nbits]
    by_cases hpair : s.dcur + Config.symLen ≤ s.nbits
    · rw [if_pos hpair, if_pos hpair]
      cases s.memRead s.dcur Config.symLen with
      | none => rfl
      | some pair =>
        cases hb : pairBit Config.mcOne pair with
        | none => simp only [hb]; rfl
        | some b => simp only [hb]; exact ih (s.takeBit b)
    · rw [if_neg hpair, if_neg hpair]
      rfl

theorem mdecode_behind (rs : List FrameRecord) (s : State) :
    mdecode (s.behind rs) = (mdecode s).map (State.behind rs) := mdecLoop_behind rs _ { s with P := pzero, ndec := 0 }

theorem symbolStep_behind (rs : List FrameRecord) (s : State) (v : Option Bool) :
    (s.behind rs).symbolStep v = (s.symbolStep v).behind rs := by
  cases v with
  | none =>
    exact ite_behind rs (s.ndec < Config.decLen ∧ s.dcur + Config.symLen ≤ s.nbits)
      (s.takeInvalid.goto .lenchk) (s.goto .lenchk)
  | some b =>
    exact ite_behind rs (s.ndec < Config.decLen ∧ s.dcur + Config.symLen ≤ s.nbits)
      ((s.takeBit b).goto (if s.ndec + 1 < Config.decLen then .mdec else .lenchk)) (s.goto .lenchk)

theorem postOk_behind (rs : List FrameRecord) (s : State) : (s.behind rs).postOk = s.postOk := by
  unfold State.postOk
  rw [memRead_congr (s := s) (t := s.behind rs) rfl rfl]
  rfl

theorem afterPost_behind (rs : List FrameRecord) (s : State) (ok : Bool) :
    (s.behind rs).afterPost ok = (s.afterPost ok).behind rs := by
  cases ok <;> rfl

/-! ### Operations, steps and runs -/

/-- No instruction reads the sink; `EMIT` alone adds to it, at its end. -/
theorem exec_behind (rs : List FrameRecord) (i : Instr) (s : State) :
    exec i (s.behind rs) = onNext (State.behind rs) (exec i s) := by
  cases i with
  | preamble =>
    exact congrArg _ (ite_behind rs (s.cursor + Config.preLen ≤ s.nbits) (s.takeMatch s.cursor) s.takeNoMatch)
  | ms0 => exact congrArg _ (symbolStep_behind rs s _)
  | ms1 => exact congrArg _ (symbolStep_behind rs s _)
  | msx0 => exact congrArg _ (symbolStep_behind rs s _)
  | msx1 => exact congrArg _ (symbolStep_behind rs s _)
  | pa0 => exact congrArg _ (afterPost_behind rs s _)
  | pa1 => exact congrArg _ (afterPost_behind rs s _)
  | frame => rfl
  | search =>
    have hsearch : (s.behind rs).search (s.behind rs).cursor = s.search s.cursor := searchFrom_behind rs s _ _
    change execSearch (s.behind rs) = onNext _ (execSearch s)
    unfold execSearch
    rw [hsearch]
    cases s.search s.cursor <;> rfl
  | guard => exact congrArg _ (ite_behind rs (s.guardOk = true) (s.goto .skip) (s.raiseTerminal .tooShort))
  | skip => rfl
  | mdec =>
    change orFault ((mdecode (s.behind rs)).map _) = onNext _ (orFault ((mdecode s).map _))
    rw [mdecode_behind, ← orFault_map, Option.map_map, Option.map_map]
    rfl
  | lenchk => exact congrArg _ (ite_behind rs (s.lengthOk = true) (s.goto .postchk) (s.raiseReject .len))
  | postchk =>
    change orFault ((s.behind rs).postOk.map (s.behind rs).afterPost) = onNext _ (orFault (s.postOk.map s.afterPost))
    rw [postOk_behind, ← orFault_map, Option.map_map]
    exact congrArg (fun f => orFault (s.postOk.map f)) (funext (afterPost_behind rs s))
  | crcchk =>
    exact congrArg _ (ite_behind rs (crcOk s.P = true) (State.goto { s with crc := payloadCrc s.P } .extract)
      (State.raiseReject { s with crc := payloadCrc s.P } .crc))
  | extract => rfl
  | emit =>
    change Host.Outcome.next ((s.behind rs).emitRecord.goto .resume) = .next ((s.emitRecord.goto .resume).behind rs)
    simp [State.behind, State.emitRecord, State.goto]
  | resume => rfl
  | finish => rfl
  | idle => rfl
  | done => rfl
  | start n =>
    exact (apply_ite (onNext (State.behind rs)) (Phase.isRest s.phase = true) (.next (s.startInvocation n))
      (.next s)).symm

/-- Neither `rst` nor the fetch reads the sink. -/
theorem step_behind (rs : List FrameRecord) (s : State) :
    step (s.behind rs) = onNext (State.behind rs) (step s) := by
  rcases step_cases s with ⟨hrst, hstep⟩ | ⟨hrst, hstep⟩
  · rw [hstep]
    exact if_pos hrst
  · rw [hstep, ← exec_behind]
    exact if_neg (show ¬ s.port.rst = true by simp [hrst])

theorem runs_succ_of_fault {s : State} {r : Fault} (h : step s = .fault r) (k : Nat) :
    runs (k + 1) s = .fault r := by
  have h' : Host.Core.step Sys2Proof.core s = .fault r := h
  simp only [runs, Host.Core.run, h']
  rfl

theorem runs_succ_of_refused {s : State} {r : Refusal} (h : step s = .refused r) (k : Nat) :
    runs (k + 1) s = .refused r := by
  have h' : Host.Core.step Sys2Proof.core s = .refused r := h
  simp only [runs, Host.Core.run, h']
  rfl

/-- A run carries the records that stood in the sink before it along untouched, however it ends. -/
theorem runs_behind (rs : List FrameRecord) (k : Nat) (s : State) :
    runs k (s.behind rs) = onNext (State.behind rs) (runs k s) := by
  induction k generalizing s with
  | zero => rfl
  | succ k ih =>
    have hstep := step_behind rs s
    cases hs : step s with
    | next t =>
      rw [hs] at hstep
      rw [runs_succ_of_step hstep, runs_succ_of_step hs, ih]
    | fault r =>
      rw [hs] at hstep
      rw [runs_succ_of_fault hstep, runs_succ_of_fault hs]
      rfl
    | refused r =>
      rw [hs] at hstep
      rw [runs_succ_of_refused hstep, runs_succ_of_refused hs]
      rfl

/-! ### Two cores at rest -/

/-- Cleared, two cores with the same row and the same ports are one core behind two sinks. -/
theorem cleared_popPort_eq_behind {s u : State} (hmem : s.mem = u.mem) (hrow : s.rowLen = u.rowLen)
    (hinputs : s.inputs = u.inputs) (p : Phase) (n : Nat) :
    s.popPort.cleared p n = State.behind s.sink { u.popPort.cleared p n with sink := [] } := by
  simp [State.behind, State.cleared, State.popPort, hmem, hrow, hinputs]

/-- A core at rest that sees `start` is cleared, by `rst` to `IDLE` or by `START` to `SEARCH` (R33, R90, R180). -/
theorem step_from_rest {s : State} (hbusy : s.busy = false) (hstart : s.port.start = true) :
    step s = .next (s.popPort.cleared (if s.port.rst then .idle else .search)
      (if s.port.rst then 0 else s.port.nbits)) := by
  cases hrst : s.port.rst with
  | true => exact if_pos hrst
  | false => exact step_of_start hbusy hrst hstart

/-- Nothing of the registers is left after that step: the next states of two such cores with the same row and the
same ports are one core behind two sinks. -/
theorem step_from_rest_behind {s u : State} (hs : s.busy = false) (hu : u.busy = false) (hmem : s.mem = u.mem)
    (hrow : s.rowLen = u.rowLen) (hinputs : s.inputs = u.inputs) (hstart : s.port.start = true) :
    ∃ w : State, step s = .next (w.behind s.sink) ∧ step u = .next (w.behind u.sink) := by
  have hport : u.port = s.port := congrArg (List.headD · PortIn.low) hinputs.symm
  rw [step_from_rest hs hstart, step_from_rest hu (hport ▸ hstart), hport]
  exact ⟨_, congrArg _ (cleared_popPort_eq_behind hmem hrow hinputs _ _),
    congrArg _ (cleared_popPort_eq_behind rfl rfl rfl _ _)⟩

/-- Settles O51: after the first step both cores are one core behind two sinks, and a run carries what stands in the
sink along untouched. -/
theorem invocationsShareNoState : Obligations.InvocationsShareNoState := by
  intro s u hs hu hmem hrow hinputs hstart k t hk hrun
  obtain ⟨j, rfl⟩ := Nat.exists_eq_succ_of_ne_zero hk.ne'
  obtain ⟨w, hsw, huw⟩ := step_from_rest_behind hs hu hmem hrow hinputs hstart
  rw [Nat.succ_eq_add_one, runs_succ_of_step hsw, runs_behind] at hrun
  obtain ⟨x, hx, rfl⟩ := onNext_eq_next.mp hrun
  refine ⟨x.behind u.sink, ?_, by simp, by simp, x.sink, by simp, by simp⟩
  rw [Nat.succ_eq_add_one, runs_succ_of_step huw, runs_behind, hx]
  rfl

end Sys2Proof.Machine
end

section
/-! PROOFS. The buffer and the ports are inputs: no operation writes them (R41). Each operation leaves the memory, the
row's length and the ports' list alone, a step moves the ports on by one entry, and a bit read depends on the memory
and the row's length only. -/

namespace Sys2Proof.Machine

/-- A bit read sees the memory and the row's length only. -/
theorem readBit_congr {s t : State} (hmem : t.mem = s.mem) (hrow : t.rowLen = s.rowLen) (a : Nat) :
    t.readBit a = s.readBit a := by
  simp [State.readBit, hmem, hrow]

/-- `t` has the buffer and the ports' list of `s`. -/
structure SameInputs (s t : State) : Prop where
  mem : t.mem = s.mem
  rowLen : t.rowLen = s.rowLen
  inputs : t.inputs = s.inputs

/-- A symbol moves `dcur` over the buffer and writes the scratch (R117). -/
theorem sameInputs_symbolStep (s : State) (v : Option Bool) : SameInputs s (s.symbolStep v) := by
  rcases symbolStep_cases s v with ⟨-, -, b, -, h⟩ | ⟨-, -, -, h⟩ | ⟨-, h⟩
  · rw [h]; exact ⟨rfl, rfl, rfl⟩
  · rw [h]; exact ⟨rfl, rfl, rfl⟩
  · rw [h]; exact ⟨rfl, rfl, rfl⟩

/-- Accepted or rejected, a postamble moves `phase` only (R120). -/
theorem sameInputs_afterPost (s : State) (ok : Bool) : SameInputs s (s.afterPost ok) := by
  cases ok with
  | true => exact ⟨rfl, rfl, rfl⟩
  | false => exact ⟨rfl, rfl, rfl⟩

/-- The operation of a phase: `EMIT` writes the sink and `count`, a rest phase nothing, and the other working phases
are `exec_phase_frame`'s. -/
theorem sameInputs_of_exec_phase {s t : State} (p : Phase) (h : exec (phaseInstr p) s = .next t) :
    SameInputs s t := by
  by_cases hw : Phase.isRest p = false
  · by_cases hemit : p = .emit
    · subst hemit
      obtain rfl := next_inj.mp h
      exact ⟨rfl, rfl, rfl⟩
    · obtain ⟨hmem, hrow, -, hinputs, -, -⟩ := exec_phase_frame hw hemit h
      exact ⟨hmem, hrow, hinputs⟩
  · cases p with
    | idle => obtain rfl := next_inj.mp h; exact ⟨rfl, rfl, rfl⟩
    | done => obtain rfl := next_inj.mp h; exact ⟨rfl, rfl, rfl⟩
    | _ => exact absurd rfl hw

/-- No instruction writes the buffer or the ports' list (R41): neither a phase's operation, nor a recognised pattern,
nor the host command. -/
theorem sameInputs_of_exec {i : Instr} {s t : State} (h : exec i s = .next t) : SameInputs s t := by
  cases i with
  | preamble =>
    obtain rfl := next_inj.mp h
    split
    · exact ⟨rfl, rfl, rfl⟩
    · exact ⟨rfl, rfl, rfl⟩
  | ms0 => exact next_inj.mp h ▸ sameInputs_symbolStep s (some false)
  | ms1 => exact next_inj.mp h ▸ sameInputs_symbolStep s (some true)
  | msx0 => exact next_inj.mp h ▸ sameInputs_symbolStep s none
  | msx1 => exact next_inj.mp h ▸ sameInputs_symbolStep s none
  | pa0 => exact next_inj.mp h ▸ sameInputs_afterPost s (s.postIs false)
  | pa1 => exact next_inj.mp h ▸ sameInputs_afterPost s (s.postIs true)
  | frame => obtain rfl := next_inj.mp h; exact ⟨rfl, rfl, rfl⟩
  | start n =>
    have h : execStart n s = .next t := h
    unfold execStart at h
    split at h
    · obtain rfl := next_inj.mp h; exact ⟨rfl, rfl, rfl⟩
    · obtain rfl := next_inj.mp h; exact ⟨rfl, rfl, rfl⟩
  | search => exact sameInputs_of_exec_phase .search h
  | guard => exact sameInputs_of_exec_phase .guard h
  | skip => exact sameInputs_of_exec_phase .skip h
  | mdec => exact sameInputs_of_exec_phase .mdec h
  | lenchk => exact sameInputs_of_exec_phase .lenchk h
  | postchk => exact sameInputs_of_exec_phase .postchk h
  | crcchk => exact sameInputs_of_exec_phase .crcchk h
  | extract => exact sameInputs_of_exec_phase .extract h
  | emit => exact sameInputs_of_exec_phase .emit h
  | resume => exact sameInputs_of_exec_phase .resume h
  | finish => exact sameInputs_of_exec_phase .finish h
  | idle => exact sameInputs_of_exec_phase .idle h
  | done => exact sameInputs_of_exec_phase .done h

/-- A step samples the ports and writes nothing else that the host gives: `rst` clears registers only, and an
instruction is `sameInputs_of_exec`'s. -/
theorem sameInputs_of_step {s t : State} (h : step s = .next t) : SameInputs s.popPort t := by
  rcases step_cases s with ⟨-, hstep⟩ | ⟨-, hstep⟩
  · obtain rfl := next_inj.mp (hstep.symm.trans h)
    exact ⟨rfl, rfl, rfl⟩
  · exact sameInputs_of_exec (hstep.symm.trans h)

/-- Settles O41: what a step and an instruction leave of the buffer fixes every bit read. -/
theorem theBufferIsNeverWritten : Obligations.TheBufferIsNeverWritten := by
  refine ⟨fun s t h => ?_, fun i s t h => ?_⟩
  · obtain ⟨hmem, hrow, -⟩ := sameInputs_of_step h
    exact ⟨hmem, hrow, readBit_congr hmem hrow⟩
  · obtain ⟨hmem, hrow, hinputs⟩ := sameInputs_of_exec h
    exact ⟨hmem, hrow, hinputs, readBit_congr hmem hrow⟩

end Sys2Proof.Machine
end

section
/-! PROOFS. The symbols of format `MSYM2` (R62). A pair of unequal bits is the symbol of its `MDecBit`, under either
value of `MC_ONE`; a pair of equal bits is an invalid symbol and does not depend on `MC_ONE`. -/

namespace Sys2Proof.Machine

/-- The two bits of a word are never too wide for `MSYM2`, and all four of its words are symbols (R62). -/
theorem decode_msym2 (mc : McOne) (w : BitVec 2) : decode mc .msym2 w.toNat = .ok (decodeMsym2 mc w) := by
  have hwidth : w.toNat < 2 ^ formatWidth .msym2 := w.isLt
  simp only [decode, if_pos hwidth, BitVec.ofNat_toNat, BitVec.setWidth_eq]

/-- A valid pair is the symbol of its `MDecBit` (R62, R111). -/
theorem decode_msym2_of_ne {mc : McOne} {w : BitVec 2} (h : w.getLsbD 1 ≠ w.getLsbD 0) :
    decode mc .msym2 w.toNat = .ok (if mdecBit mc (w.getLsbD 1) (w.getLsbD 0) then .ms1 else .ms0) := by
  have hbit : pairBit mc w = some (mdecBit mc (w.getLsbD 1) (w.getLsbD 0)) := by rw [pairBit_eq, if_neg h]
  rw [decode_msym2, decodeMsym2, hbit]
  cases mdecBit mc (w.getLsbD 1) (w.getLsbD 0) with
  | false => rfl
  | true => rfl

/-- An invalid pair is the invalid symbol of its bit, whichever value `MC_ONE` has (R62, R113). -/
theorem decode_msym2_of_eq {mc : McOne} {w : BitVec 2} (h : w.getLsbD 1 = w.getLsbD 0) :
    decode mc .msym2 w.toNat = .ok (if w.getLsbD 0 then .msx1 else .msx0) := by
  have hbit : pairBit mc w = none := by rw [pairBit_eq, if_pos h]
  rw [decode_msym2, decodeMsym2, hbit]

/-- Settles O15: `MDecBit` is the second bit of a valid pair under `01` and the first under `10`, which swaps the two
valid symbols; the invalid ones are the same under both values. -/
theorem symbolsFollowMcOne : Obligations.SymbolsFollowMcOne := by
  have msx0 (mc : McOne) : decode mc .msym2 0b00 = .ok .msx0 := decode_msym2_of_eq (w := 0b00#2) rfl
  have msx1 (mc : McOne) : decode mc .msym2 0b11 = .ok .msx1 := decode_msym2_of_eq (w := 0b11#2) rfl
  have pair10 (mc : McOne) : decode mc .msym2 0b10 = .ok (if mdecBit mc true false then .ms1 else .ms0) :=
    decode_msym2_of_ne (w := 0b10#2) (by decide)
  have pair01 (mc : McOne) : decode mc .msym2 0b01 = .ok (if mdecBit mc false true then .ms1 else .ms0) :=
    decode_msym2_of_ne (w := 0b01#2) (by decide)
  exact ⟨⟨pair10 .pair01, pair01 .pair01, msx0 .pair01, msx1 .pair01⟩,
    ⟨pair01 .pair10, pair10 .pair10, msx0 .pair10, msx1 .pair10⟩, rfl⟩

end Sys2Proof.Machine
end

section
/-! PROOFS. The preamble locator (R80, R81, R84): what `SEARCH` answers, in the spec's words for an occurrence, and the
bit-serial search, whose shift register moves on with the windows of the search. -/

namespace Sys2Proof.Machine

/-! ### The window test, in the spec's words -/

/-- The window test answers yes at the occurrences of the preamble (R61, R81). -/
theorem match8_eq_true_iff_occursAt {s : State} {p : Nat} : s.match8 p = some true ↔ s.occursAt p := by
  rw [match8_eq_true]
  simp only [State.occursAt, readBit_eq_some]
  constructor
  · rintro ⟨hbuf, hrow, hbits⟩
    have bit_at (j : Nat) (hj : j < 8) {b : Bool} (hb : Config.preamble.getLsbD (7 - j) = b) :
        p + j < s.rowLen ∧ Memory.bit s.mem (p + j) = b := ⟨by omega, hb ▸ hbits j hj⟩
    exact ⟨hbuf, bit_at 0 (by decide) rfl, bit_at 1 (by decide) rfl, bit_at 2 (by decide) rfl,
      bit_at 3 (by decide) rfl, bit_at 4 (by decide) rfl, bit_at 5 (by decide) rfl, bit_at 6 (by decide) rfl,
      bit_at 7 (by decide) rfl⟩
  · rintro ⟨hbuf, ⟨-, h0⟩, ⟨-, h1⟩, ⟨-, h2⟩, ⟨-, h3⟩, ⟨-, h4⟩, ⟨-, h5⟩, ⟨-, h6⟩, ⟨hrow, h7⟩⟩
    refine ⟨hbuf, by omega, fun j hj => ?_⟩
    interval_cases j
    exacts [h0, h1, h2, h3, h4, h5, h6, h7]

/-- The window test answers no where no occurrence is, if the row has the bits of the window (R81). -/
theorem match8_eq_false {s : State} {p : Nat} (hrow : p + 8 ≤ s.nbits → p + 8 ≤ s.rowLen) (hno : ¬ s.occursAt p) :
    s.match8 p = some false := by
  cases hm : s.match8 p with
  | none => have := match8_eq_none.mp hm; omega
  | some b =>
    cases b with
    | false => rfl
    | true => exact absurd (match8_eq_true_iff_occursAt.mp hm) hno

/-! ### The scan -/

/-- Windows that all answer no leave the scan without an answer. -/
theorem searchFrom_eq_notFound {s : State} {n p : Nat} (h : ∀ r, p ≤ r → s.match8 r = some false) :
    s.searchFrom n p = .notFound := by
  rcases searchFrom_spec s n p with ⟨q, -, hq, -, hm, -⟩ | ⟨hs, -⟩ | ⟨-, q, hq, -, hm, -⟩
  · exact absurd (hm.symm.trans (h q hq)) (by simp)
  · exact hs
  · exact absurd (hm.symm.trans (h q hq)) (by simp)

/-- A window that answers yes, all before it answering no, is what the search finds (R80). -/
theorem search_eq_found {s : State} {c p : Nat} (hp : c ≤ p) (hm : s.match8 p = some true)
    (hbefore : ∀ r, c ≤ r → r < p → s.match8 r = some false) : s.search c = .found p := by
  have not_before {q : Nat} (hq : c ≤ q) (hne : s.match8 q ≠ some false) : p ≤ q :=
    not_lt.mp fun hlt => hne (hbefore q hq hlt)
  have not_after {q : Nat} (hfalse : ∀ r, c ≤ r → r < q → s.match8 r = some false) : q ≤ p :=
    not_lt.mp fun hlt => absurd (hm.symm.trans (hfalse p hp hlt)) (by simp)
  rcases search_spec s c with ⟨q, hs, hq, hmq, hfalse⟩ | ⟨-, hfalse⟩ | ⟨-, q, hq, hmq, hfalse⟩
  · rw [hs, le_antisymm (not_before hq (by simp [hmq])) (not_after hfalse)]
  · exact absurd (hm.symm.trans (hfalse p hp)) (by simp)
  · obtain rfl := le_antisymm (not_before hq (by simp [hmq])) (not_after hfalse)
    exact absurd (hm.symm.trans hmq) (by simp)

/-- `SEARCH` takes the occurrence that the search finds (R80). -/
theorem exec_search_of_found {s : State} {p : Nat} (h : s.search s.cursor = .found p) :
    exec .search s = .next (s.takeMatch p) := by
  rw [show exec .search s = execSearch s from rfl, execSearch, h]

/-- `SEARCH` ends the scan when the search finds nothing (R80, R92). -/
theorem exec_search_of_notFound {s : State} (h : s.search s.cursor = .notFound) :
    exec .search s = .next s.takeNoMatch := by
  rw [show exec .search s = execSearch s from rfl, execSearch, h]

/-- Settles O5: the windows before the least occurrence answer no, and the row has their bits because it has those of
the occurrence; with no occurrence, all windows answer no. -/
theorem searchFindsTheLeastOccurrence : Obligations.SearchFindsTheLeastOccurrence := by
  refine ⟨rfl, fun s => ⟨fun p hp hocc hleast => exec_search_of_found ?_, fun hrow hnone => exec_search_of_notFound ?_⟩⟩
  · have hm := match8_eq_true_iff_occursAt.mpr hocc
    obtain ⟨-, hrow, -⟩ := match8_eq_true.mp hm
    exact search_eq_found hp hm fun q hq hlt => match8_eq_false (fun _ => by omega) (hleast q hq hlt)
  · exact searchFrom_eq_notFound fun q hq => match8_eq_false (fun _ => by omega) (hnone q hq)

/-! ### The shift register (R84) -/

/-- The register holds the bits fed last, the newest at its low end: `fed` bits have been fed, `j` is the next address.
It has eight places, and the places not reached by a fed bit are left open. -/
def HoldsLast (s : State) (j fed : Nat) (sr : BitVec 8) : Prop :=
  ∀ i a, i < 8 → i < fed → a + i + 1 = j → sr.getLsbD i = Memory.bit s.mem a

theorem holdsLast_refill (s : State) (c : Nat) : HoldsLast s c 0 0#8 :=
  fun _ _ _ hfed => absurd hfed (Nat.not_lt_zero _)

theorem HoldsLast.feed {s : State} {j fed : Nat} {sr : BitVec 8} (h : HoldsLast s j fed sr) :
    HoldsLast s (j + 1) (fed + 1) (sr.shiftConcat (Memory.bit s.mem j)) := by
  intro i a hi hfed ha
  rw [BitVec.getLsbD_shiftConcat]
  cases i with
  | zero =>
    obtain rfl : a = j := by omega
    simp
  | succ i => simpa [hi] using h i a (by omega) (by omega) (by omega)

/-- With eight bits fed, comparing the register with the preamble is the test of the window that ends at the newest
bit. -/
theorem HoldsLast.match8_eq {s : State} {p fed : Nat} {sr : BitVec 8} (h : HoldsLast s (p + 8) fed sr) (hfed : 8 ≤ fed)
    (hbuf : p + 8 ≤ s.nbits) (hrow : s.nbits ≤ s.rowLen) : s.match8 p = some (decide (sr = Config.preamble)) := by
  have hread : s.memRead p 8 = some sr :=
    memRead_eq_some.mpr ⟨fun _ => by omega, fun j hj => h (8 - 1 - j) (p + j) (by omega) (by omega) (by omega)⟩
  simp only [State.match8, Config.preLen, if_pos hbuf, hread]

/-! ### The bit-serial search -/

/-- One bit fed: the register, with the bit in it, is compared once eight bits stand in it. -/
theorem serialFrom_succ {s : State} {n j fed : Nat} {sr : BitVec 8} (hj : j < s.rowLen) :
    serialFrom s (n + 1) j fed sr =
      if 8 ≤ fed + 1 ∧ sr.shiftConcat (Memory.bit s.mem j) = Config.preamble then .found (j - 7)
      else serialFrom s n (j + 1) (fed + 1) (sr.shiftConcat (Memory.bit s.mem j)) := by
  simp only [serialFrom, readBit_of_lt hj]
  rfl

/-- With seven bits fed, each further bit completes a window: the bit-serial search at address `p + 7` answers what the
scan answers from the window at `p` on, whose last seven windows do not fit. -/
theorem serialFrom_eq_searchFrom {s : State} (hrow : s.nbits ≤ s.rowLen) (n : Nat) {p fed : Nat} {sr : BitVec 8}
    (hfed : 7 ≤ fed) (hn : p + 7 + n = s.nbits) (h : HoldsLast s (p + 7) fed sr) :
    serialFrom s n (p + 7) fed sr = s.searchFrom (n + 7) p := by
  induction n generalizing p fed sr with
  | zero => exact (searchFrom_eq_notFound fun r hr => match8_of_gt (by omega)).symm
  | succ n ih =>
    have hfeed := h.feed
    have hwindow := hfeed.match8_eq (by omega) (by omega) hrow
    rw [serialFrom_succ (by omega), Nat.add_right_comm, State.searchFrom, hwindow]
    by_cases hm : sr.shiftConcat (Memory.bit s.mem (p + 7)) = Config.preamble
    · rw [if_pos ⟨by omega, hm⟩, decide_eq_true hm, Nat.add_sub_cancel]
    · rw [if_neg fun hc => hm hc.2, decide_eq_false hm]
      exact ih (p := p + 1) (by omega) (by omega) hfeed

/-- While the register fills, no window is complete: the bit-serial search, `fed` bits behind the cursor, answers what
the scan answers from the cursor on. -/
theorem serialFrom_eq_searchFrom_of_filling {s : State} (hrow : s.nbits ≤ s.rowLen) (n : Nat) {c fed : Nat}
    {sr : BitVec 8} (hfed : fed ≤ 7) (hn : c + fed + n = s.nbits) (h : HoldsLast s (c + fed) fed sr) :
    serialFrom s n (c + fed) fed sr = s.searchFrom (n + fed) c := by
  induction n generalizing fed sr with
  | zero => exact (searchFrom_eq_notFound fun r hr => match8_of_gt (by omega)).symm
  | succ n ih =>
    rcases Nat.lt_or_eq_of_le hfed with hlt | rfl
    · rw [serialFrom_succ (by omega), if_neg fun hc => absurd hc.1 (by omega), Nat.add_right_comm n 1 fed]
      exact ih (by omega) (by omega) h.feed
    · exact serialFrom_eq_searchFrom hrow (n + 1) le_rfl hn h

/-- Settles O7: at the cursor no bit has been fed, and the register fills from there; a cursor beyond the buffer leaves
both searches nothing to read. -/
theorem bitSerialSearchAgrees : Obligations.BitSerialSearchAgrees := by
  intro s c hrow
  rcases Nat.le_total c s.nbits with hc | hc
  · exact serialFrom_eq_searchFrom_of_filling hrow _ (Nat.zero_le 7) (by omega) (holdsLast_refill s c)
  · rw [serialSearch, State.search, Nat.sub_eq_zero_of_le hc]
    rfl

end Sys2Proof.Machine
end

section
/-! PROOFS. The discovery loop (R90 to R102): its operations one by one, and the invocation on a buffer too short for a
body, in which `GUARD` turns the first candidate away. -/

namespace Sys2Proof.Machine

/-! ### The operations of the loop -/

/-- The code of a phase is the word of its operation (R70). -/
theorem decode_phase_code (mc : McOne) (p : Phase) : decode mc .phase4 (Phase.code p).toNat = .ok (phaseInstr p) := by
  have hwidth : (Phase.code p).toNat < 2 ^ formatWidth .phase4 := (Phase.code p).isLt
  simp only [decode, if_pos hwidth, BitVec.ofNat_toNat, BitVec.setWidth_eq, decodePhase4_code]

/-- `START` in a rest phase re-initialises the core (R90). -/
theorem exec_start_of_rest {s : State} (h : s.busy = false) (n : Nat) :
    exec (.start n) s = .next (s.startInvocation n) :=
  if_pos (by simpa [State.busy] using h)

/-- `START` while busy does nothing (R25, R187). -/
theorem exec_start_of_busy {s : State} (h : s.busy = true) (n : Nat) : exec (.start n) s = .next s :=
  if_neg (by simpa [State.busy] using h)

/-- `GUARD` writes `phase` and nothing else, on either side of its test (R93). -/
theorem exec_guard (s : State) :
    exec .guard s = .next (s.goto (if s.mpos + 136 ≤ s.nbits then .skip else .finish)) := by
  by_cases hfit : s.mpos + 136 ≤ s.nbits
  · have hok : s.guardOk = true := decide_eq_true hfit
    rw [show exec .guard s = execGuard s from rfl, execGuard, if_pos hok, if_pos hfit]
  · have hok : ¬ s.guardOk = true := fun h => hfit (of_decide_eq_true h)
    rw [show exec .guard s = execGuard s from rfl, execGuard, if_neg hok, if_neg hfit]
    rfl

/-- Settles O3: the command itself tells the rest phases from the others, and a step that honours `start` is
`step_of_start`, which is the command on the state with its ports sampled. -/
theorem startReinitialisesTheCore : Obligations.StartReinitialisesTheCore := by
  refine ⟨fun n s hbusy => exec_start_of_busy hbusy n, fun s hrest hrst hstart => ?_, fun n s hrest => ?_⟩
  · have hpop : s.popPort.busy = false := hrest
    rw [step_of_start hrest hrst hstart, exec_start_of_rest hpop]
  · exact ⟨s.startInvocation n, exec_start_of_rest hrest n, rfl, rfl, rfl⟩

/-- Settles O10: code 2 is the code of `GUARD`, and `exec_guard` writes out its two sides. -/
theorem guardTestsTheRemainingLength : Obligations.GuardTestsTheRemainingLength :=
  ⟨decode_phase_code Config.mcOne .guard, exec_guard⟩

/-- Settles O11: code 3 is the code of `SKIP`, whose fresh candidate is the state the statement writes out. -/
theorem skipPreparesAFreshScratch : Obligations.SkipPreparesAFreshScratch :=
  ⟨decode_phase_code Config.mcOne .skip, fun _ => rfl⟩

/-- Settles O12: code 10 is the code of `RESUME`; the value of `RESUME_AT` selects which cursor the scan goes on
from. -/
theorem resumeReturnsToTheScan : Obligations.ResumeReturnsToTheScan :=
  ⟨decode_phase_code Config.mcOne .resume, fun _ => rfl, fun _ => rfl⟩

/-! ### Buffers below 136 bits (R108) -/

/-- One step of the machine within an invocation, no record handed over. -/
structure SilentStep (s t : State) : Prop where
  next : step s = .next t
  handed : Handed s t []

/-- The step of a working phase other than `EMIT` is silent. -/
theorem Running.silentStep {s t : State} {p : Phase} (hr : Running s) (hp : s.phase = p)
    (hw : Phase.isRest p = false) (hemit : p ≠ .emit) (he : exec (phaseInstr p) s.popPort = .next t) :
    SilentStep s t where
  next := (step_of_working (port_rst_of_quiet hr.quiet) hp hw).trans he
  handed := (hr.yields_silent hp hw hemit he).handed

/-- `SEARCH` goes to `GUARD` with an occurrence, to `FINISH` without one; a row that has the bits of the buffer leaves
no third way (R80, R92). -/
theorem search_step {s : State} (hr : Running s) (hp : s.phase = .search) :
    ∃ t, SilentStep s t ∧ (t.phase = .finish ∨ t.phase = .guard) := by
  have hsearch := search_eq_refSearch (s := s.popPort) hr.in_row s.popPort.cursor
  cases href : refSearch (Memory.bit s.popPort.mem) s.popPort.nbits s.popPort.cursor with
  | none =>
    rw [href] at hsearch
    exact ⟨_, hr.silentStep hp rfl (by decide) (exec_search_of_notFound hsearch), .inl rfl⟩
  | some q =>
    rw [href] at hsearch
    exact ⟨_, hr.silentStep hp rfl (by decide) (exec_search_of_found hsearch), .inr rfl⟩

/-- `GUARD` ends the scan on a buffer below 136 bits, wherever the occurrence lies (R93). -/
theorem guard_step_of_short {s : State} (hr : Running s) (hp : s.phase = .guard) (hshort : s.nbits < 136) :
    ∃ t, SilentStep s t ∧ t.phase = .finish := by
  have hguard : exec .guard s.popPort = .next (s.popPort.goto .finish) := by
    rw [exec_guard, if_neg (by simp only [popPort_mpos, popPort_nbits]; omega)]
  exact ⟨_, hr.silentStep hp rfl (by decide) hguard, rfl⟩

/-- `FINISH` goes to `DONE` (R102). -/
theorem finish_step {s : State} (hr : Running s) (hp : s.phase = .finish) : ∃ t, SilentStep s t ∧ t.phase = .done :=
  ⟨_, hr.silentStep hp rfl (by decide) rfl, rfl⟩

/-- One more step at the end of a run. -/
theorem runs_succ_of_runs {s t u : State} {k : Nat} (hrun : runs k s = .next t) (hstep : step t = .next u) :
    runs (k + 1) s = .next u := by
  induction k generalizing s with
  | zero =>
    obtain rfl := next_inj.mp hrun
    exact runs_succ_of_step hstep 0
  | succ k ih =>
    obtain ⟨v, hv, hrest⟩ := runs_succ_next hrun
    exact (runs_succ_of_step hv (k + 1)).trans (ih hrest)

/-- Settles O48: `START` enters `SEARCH` with `count` 0, `GUARD` turns away an occurrence found there, and every step
up to `DONE` is silent. -/
theorem shortBuffersMakeNoDecodeAttempt : Obligations.ShortBuffersMakeNoDecodeAttempt := by
  intro s hbusy hstart hok hshort
  have hr := running_startInvocation hstart hok
  have hrun1 := runs_succ_of_step (step_of_start hbusy (port_rst_of_quiet fun p hp => (hok.2 p hp).1) hstart) 0
  obtain ⟨s2, ⟨hstep2, hhanded2⟩, hfinish | hguard⟩ := search_step hr rfl
  · have hrun2 := runs_succ_of_runs hrun1 hstep2
    obtain ⟨s3, ⟨hstep3, hhanded3⟩, hdone⟩ := finish_step (hhanded2.running hr) hfinish
    have hall := hhanded2.trans hhanded3
    exact ⟨_, s2, s3, hrun1, hrun2, runs_succ_of_runs hrun2 hstep3, rfl,
      .inl ⟨hfinish, hdone, hall.count, by simpa using hall.sink⟩⟩
  · have hrun2 := runs_succ_of_runs hrun1 hstep2
    have hr2 := hhanded2.running hr
    obtain ⟨s3, ⟨hstep3, hhanded3⟩, hfinish⟩ := guard_step_of_short hr2 hguard (hhanded2.nbits ▸ hshort)
    have hrun3 := runs_succ_of_runs hrun2 hstep3
    obtain ⟨s4, ⟨hstep4, hhanded4⟩, hdone⟩ := finish_step (hhanded3.running hr2) hfinish
    have hall := (hhanded2.trans hhanded3).trans hhanded4
    exact ⟨_, s2, s3, hrun1, hrun2, hrun3, rfl, .inr ⟨hguard, hfinish, s4, runs_succ_of_runs hrun3 hstep4, hdone,
      hall.count, by simpa using hall.sink⟩⟩

end Sys2Proof.Machine
end

section
/-! PROOFS. The Manchester decoder (R110 to R115): the pairs of the body, read in the spec's words, decide how far the
decoder's loop comes and where it leaves the body cursor; `LENCHK` then tests the count. -/

namespace Sys2Proof.Machine

/-! ### The pairs of a body -/

/-- A valid pair lies in the row and its bits differ (R111). -/
theorem validPair_iff {s : State} {d k : Nat} :
    s.validPair d k
      ↔ d + 2 * k + 2 ≤ s.rowLen ∧ Memory.bit s.mem (d + 2 * k) ≠ Memory.bit s.mem (d + 2 * k + 1) := by
  simp only [State.validPair, readBit_eq_some]
  constructor
  · rintro ⟨a, b, ⟨-, rfl⟩, ⟨hrow, rfl⟩, hne⟩
    exact ⟨hrow, hne⟩
  · rintro ⟨hrow, hne⟩
    exact ⟨_, _, ⟨by omega, rfl⟩, ⟨hrow, rfl⟩, hne⟩

/-- An invalid pair lies in the row and its bits are equal (R113). -/
theorem invalidPair_iff {s : State} {d k : Nat} :
    s.invalidPair d k
      ↔ d + 2 * k + 2 ≤ s.rowLen ∧ Memory.bit s.mem (d + 2 * k) = Memory.bit s.mem (d + 2 * k + 1) := by
  simp only [State.invalidPair, readBit_eq_some]
  constructor
  · rintro ⟨a, ⟨-, ha⟩, ⟨hrow, hb⟩⟩
    exact ⟨hrow, ha.trans hb.symm⟩
  · rintro ⟨hrow, heq⟩
    exact ⟨_, ⟨by omega, rfl⟩, ⟨hrow, heq.symm⟩⟩

/-! ### Where the loop ends -/

/-- With the whole body below `nbits`, the loop takes the pairs before the first one of equal bits (R110, R114). -/
theorem LoopEnd.taken_eq {s t : State} {m k n : Nat} (h : LoopEnd s t m k) (hfit : s.dcur + 2 * m ≤ s.nbits)
    (hn : n ≤ m) (hvalid : ∀ j, j < n → s.validPair s.dcur j) (hinvalid : n < m → s.invalidPair s.dcur n) : k = n := by
  rcases Nat.lt_trichotomy k n with hlt | heq | hgt
  · have hne := (validPair_iff.mp (hvalid k hlt)).2
    rcases h.stop with ⟨hk, -⟩ | ⟨-, -, -, -, heq⟩ | ⟨-, hshort, -⟩
    · omega
    · exact absurd heq hne
    · omega
  · exact heq
  · have hle := h.le
    have heq := (invalidPair_iff.mp (hinvalid (by omega))).2
    exact absurd heq (h.valid n hgt).2.2

/-- The body cursor past the consumed pairs; a pair that ends the loop early is one of them (R113, log 11). -/
theorem LoopEnd.dcur_eq {s t : State} {m k : Nat} (h : LoopEnd s t m k) (hfit : s.dcur + 2 * m ≤ s.nbits) :
    t.dcur = if k = m then s.dcur + 2 * m else s.dcur + 2 * (k + 1) := by
  rcases h.stop with ⟨rfl, hd⟩ | ⟨hlt, -, -, hd, -⟩ | ⟨hlt, hshort, -⟩
  · rw [if_pos rfl, hd]
  · rw [if_neg hlt.ne, hd, Nat.mul_succ, Nat.add_assoc]
  · omega

/-- `MDEC` does not fault on a body whose pairs are in the row as far as the decoding comes: up to and with the first
invalid one (log 4). -/
theorem execMdec_loopEnd {s : State} {n : Nat} (hvalid : ∀ k, k < n → s.validPair s.dcur k)
    (hinvalid : n < 64 → s.invalidPair s.dcur n) :
    ∃ t k, execMdec s = .next { s with P := t.P, ndec := k, dcur := t.dcur, phase := .lenchk }
      ∧ LoopEnd { s with P := pzero, ndec := 0 } t 64 k := by
  rcases execMdec_spec s with hend | ⟨-, k, hk, -, hout, hdiffer⟩
  · exact hend
  · exfalso
    rcases Nat.lt_trichotomy k n with hlt | rfl | hgt
    · exact absurd (validPair_iff.mp (hvalid k hlt)).1 (by omega)
    · exact absurd (invalidPair_iff.mp (hinvalid hk)).1 (by omega)
    · exact hdiffer n hgt (invalidPair_iff.mp (hinvalid (by omega))).2

/-! ### `MDEC` and `LENCHK` -/

/-- Settles O16: no read of the body faults, the loop ends at pair `n`, and its bits are those of a cleared scratch with
the pairs' values in the first `n` places. -/
theorem mdecDecodesTheBody : Obligations.MdecDecodesTheBody := by
  refine ⟨decode_phase_code Config.mcOne .mdec, fun _ _ => ⟨rfl, rfl⟩, fun s n hn hfit hvalid hinvalid => ?_⟩
  obtain ⟨t, k, hexec, hend⟩ := execMdec_loopEnd hvalid hinvalid
  obtain rfl : k = n := hend.taken_eq hfit hn hvalid hinvalid
  have hdcur : t.dcur = if k = 64 then s.dcur + 128 else s.dcur + 2 * (k + 1) := hend.dcur_eq hfit
  refine ⟨t.P, hdcur ▸ hexec, fun j hj => ?_⟩
  have hbit : pbit t.P j = (decide (j < k) && s.pairValue s.dcur j) := by
    simpa [State.pairValue] using hend.bits le_rfl j hj
  exact hbit

/-- `LENCHK` writes `phase` and nothing else, on either side of its test (R115). -/
theorem exec_lenchk (s : State) : exec .lenchk s = .next (s.goto (if s.ndec = 64 then .postchk else .resume)) := by
  by_cases hfull : s.ndec = 64
  · have hok : s.lengthOk = true := decide_eq_true hfull
    rw [show exec .lenchk s = execLenchk s from rfl, execLenchk, if_pos hok, if_pos hfull]
  · have hok : ¬ s.lengthOk = true := fun h => hfull (of_decide_eq_true h)
    rw [show exec .lenchk s = execLenchk s from rfl, execLenchk, if_neg hok, if_neg hfull]
    rfl

/-- Settles O20: code 5 is the code of `LENCHK`, and `exec_lenchk` writes out its two sides. -/
theorem lenchkRequiresSixtyFourBits : Obligations.LenchkRequiresSixtyFourBits :=
  ⟨decode_phase_code Config.mcOne .lenchk, exec_lenchk⟩

end Sys2Proof.Machine
end

section
/-! PROOFS. The frame validator (R120 to R126): the two checks of a decoded candidate, each of which writes its verdict
to `phase`, and the forms of the checksum, which follow one register step by step. -/

namespace Sys2Proof.Machine

/-! ### The forms of the checksum (R125) -/

/-- A message bit enters at bit 0, so a shift of the register XORed with a byte takes in the byte's lowest bit and
leaves the others for the next shifts. -/
theorem crcShift_xor_eq_crcRightBit (r b : Byte) : crcShift (r ^^^ b) = crcRightBit r (b.getLsbD 0) ^^^ (b >>> 1) := by
  unfold crcShift crcRightBit
  rw [BitVec.getLsbD_xor, BitVec.ushiftRight_xor_distrib]
  split
  · rw [BitVec.xor_assoc, BitVec.xor_assoc, BitVec.xor_comm (b >>> 1)]
  · rfl

/-- After `n` shifts, `n` bits of the byte have been taken in and the rest is still to come. -/
theorem crcShifts_xor_eq_foldl (n : Nat) (r b : Byte) :
    crcShifts n (r ^^^ b) = ((List.range n).map b.getLsbD).foldl crcRightBit r ^^^ (b >>> n) := by
  induction n generalizing r b with
  | zero => simp [crcShifts]
  | succ n ih =>
    have hrest : (List.range n).map (b.getLsbD ∘ Nat.succ) = (List.range n).map (b >>> 1).getLsbD :=
      List.map_congr_left fun i _ => by simp [Nat.add_comm]
    rw [crcShifts, crcShift_xor_eq_crcRightBit, ih, List.range_succ_eq_map, List.map_cons, List.map_map,
      List.foldl_cons, hrest, ← BitVec.shiftRight_add, Nat.add_comm 1 n]

/-- Taking in a byte is taking in its eight bits (R125 (a)). -/
theorem crcByte_eq_foldl (r b : Byte) : crcByte r b = ((List.range 8).map b.getLsbD).foldl crcRightBit r := by
  have hempty : b >>> 8 = 0#8 := BitVec.ushiftRight_eq_zero le_rfl
  rw [crcByte, crcShifts_xor_eq_foldl, hempty, BitVec.xor_zero]

/-- The bit-serial form is the checksum (R125 (a)). -/
theorem crcBitSerial_eq_crc8 (m : List Byte) : crcBitSerial m = crc8 m := by
  have hbyte : crcByte = fun r b => ((List.range 8).map b.getLsbD).foldl crcRightBit r := by
    funext r b
    exact crcByte_eq_foldl r b
  rw [crcBitSerial, messageBits, List.foldl_flatMap, crc8, hbyte]

theorem reverse8_getLsbD (c : Byte) {i : Nat} (hi : i < 8) : (reverse8 c).getLsbD i = c.getLsbD (7 - i) := by
  rw [reverse8, BitVec.getLsbD_reverse, BitVec.getMsbD_eq_getLsbD, decide_eq_true hi, Bool.true_and]

theorem reverse8_xor (a b : Byte) : reverse8 (a ^^^ b) = reverse8 a ^^^ reverse8 b :=
  BitVec.eq_of_getLsbD_eq fun i hi => by
    simp only [reverse8_getLsbD _ hi, BitVec.getLsbD_xor]

/-- Reversal turns a left shift into a right shift. -/
theorem reverse8_shiftLeft_one (c : Byte) : reverse8 (c <<< 1) = reverse8 c >>> 1 :=
  BitVec.eq_of_getLsbD_eq fun i hi => by
    rw [reverse8_getLsbD _ hi, BitVec.getLsbD_ushiftRight]
    by_cases hlast : i = 7
    · subst hlast
      simp
    · rw [reverse8_getLsbD _ (by omega), BitVec.getLsbD_shiftLeft]
      simp [show ¬ 7 - i < 1 by omega, show 7 - i < 8 by omega, show 7 - i - 1 = 7 - (1 + i) by omega]

/-- The two constants of R124 are each other's reversal. -/
theorem reverse8_crcPoly : reverse8 Config.crcPoly = Config.crcPolyReflected := by decide

/-- The left-shifting register holds the reversal of the right-shifting one (R125 (b)). -/
theorem crcRightBit_reverse8 (c : Byte) (u : Bool) : crcRightBit (reverse8 c) u = reverse8 (crcLeftBit c u) := by
  have htop : (reverse8 c).getLsbD 0 = c.getLsbD 7 := reverse8_getLsbD c (by decide)
  rw [crcRightBit, crcLeftBit, htop, apply_ite reverse8, reverse8_xor, reverse8_shiftLeft_one, reverse8_crcPoly]

/-- The left-shifting form is the bit-serial one (R125 (b)). -/
theorem crcLeftShift_eq_crcBitSerial (m : List Byte) : crcLeftShift m = crcBitSerial m := by
  have hinit : reverse8 (reverse8 Config.crcInit) = Config.crcInit := by decide
  rw [crcLeftShift, ← List.foldl_hom reverse8 crcRightBit_reverse8, hinit, crcBitSerial]

/-- The entry of R125 (c)'s table for a byte. -/
theorem crc8_singleton (v : Byte) : crc8 [v] = crcShifts 8 v := by
  rw [← List.nil_append [v], crc8_snoc, crc8_nil, crcByte, BitVec.zero_xor]

/-- Settles O25: a byte is taken in bit by bit, reversal carries each step of the one register to the other, and the
table's entry is the eight shifts of a byte. -/
theorem checksumFormsAgree : Obligations.ChecksumFormsAgree := by
  refine fun m => ⟨crcBitSerial_eq_crc8 m, (crcLeftShift_eq_crcBitSerial m).trans (crcBitSerial_eq_crc8 m), fun b => ?_⟩
  rw [crc8_snoc, crc8_singleton, crcByte]

/-! ### `POSTCHK` -/

/-- A verdict on the postamble goes to `phase` and nowhere else (R120). -/
theorem afterPost_decide (s : State) (p : Prop) [Decidable p] :
    s.afterPost (decide p) = s.goto (if p then .crcchk else .resume) := by
  by_cases hp : p
  · rw [decide_eq_true hp, if_pos hp]
    rfl
  · rw [decide_eq_false hp, if_neg hp]
    rfl

/-- With both bits below `nbits` and in the row, the verdict is the comparison of R120. -/
theorem postOk_of_reads {s : State} {a b : Bool} (hfit : s.dcur + 2 ≤ s.nbits) (ha : s.readBit s.dcur = some a)
    (hb : s.readBit (s.dcur + 1) = some b) : s.postOk = some (decide (a = s.lastBit ∧ b = s.lastBit)) := by
  obtain ⟨-, rfl⟩ := readBit_eq_some.mp ha
  obtain ⟨hrow, rfl⟩ := readBit_eq_some.mp hb
  rcases postOk_spec s with ⟨hout, -⟩ | ⟨-, -, hok⟩ | ⟨-, hout, -⟩
  · omega
  · exact hok
  · omega

/-- A postamble that does not end below `nbits` fails the check (R122). -/
theorem postOk_of_short {s : State} (hshort : s.nbits < s.dcur + 2) : s.postOk = some false := by
  rcases postOk_spec s with ⟨-, hok⟩ | ⟨hfit, -⟩ | ⟨hfit, -⟩
  · exact hok
  · omega
  · omega

/-- Where the check has a verdict, `POSTCHK` follows it (R120). -/
theorem exec_postchk_of_postOk {s : State} {ok : Bool} (h : s.postOk = some ok) :
    exec .postchk s = .next (s.afterPost ok) := by
  rw [show exec .postchk s = execPostchk s from rfl, execPostchk, h]
  rfl

/-- Settles O22: code 6 is the code of `POSTCHK`; the verdict is the comparison where both bits are read, and a
rejection where they do not lie below `nbits`. -/
theorem postchkComparesTwoBits : Obligations.PostchkComparesTwoBits := by
  refine ⟨decode_phase_code Config.mcOne .postchk, fun s => ⟨fun a b hfit ha hb => ?_, fun hshort => ?_⟩⟩
  · rw [exec_postchk_of_postOk (postOk_of_reads hfit ha hb), afterPost_decide]
    rfl
  · exact exec_postchk_of_postOk (postOk_of_short hshort)

/-! ### `CRCCHK` -/

/-- The checksum of a payload is that of its first seven bytes, in order (R126, R129). -/
theorem payloadCrc_eq (P : Payload) : payloadCrc P
    = crc8 [pbyte P 0, pbyte P 1, pbyte P 2, pbyte P 3, pbyte P 4, pbyte P 5, pbyte P 6] := by
  rw [payloadCrc, pdata_eq]

/-- `CRCCHK` writes the checksum to `crc` and its comparison with the eighth byte to `phase`, and nothing else
(R126). -/
theorem exec_crcchk (s : State) : exec .crcchk s = .next { s with
    crc := payloadCrc s.P, phase := if payloadCrc s.P = pbyte s.P 7 then .extract else .resume } := by
  by_cases heq : payloadCrc s.P = pbyte s.P 7
  · have hok : crcOk s.P = true := decide_eq_true heq
    rw [show exec .crcchk s = execCrcchk s from rfl, execCrcchk, if_pos hok, if_pos heq]
    rfl
  · have hok : ¬ crcOk s.P = true := fun h => heq (of_decide_eq_true h)
    rw [show exec .crcchk s = execCrcchk s from rfl, execCrcchk, if_neg hok, if_neg heq]
    rfl

/-- Settles O24: code 7 is the code of `CRCCHK`, and `exec_crcchk` writes out its two sides. -/
theorem crcchkComparesTheChecksum : Obligations.CrcchkComparesTheChecksum := by
  refine ⟨decode_phase_code Config.mcOne .crcchk, fun s => ?_⟩
  rw [exec_crcchk, payloadCrc_eq]

end Sys2Proof.Machine
end

section
/-! PROOFS. The field extractor (R135 to R144): the record register, built from bytes 0 to 5. The sink's binary64
rendering of the temperature (R145). -/

namespace Sys2Proof.Machine

/-! ### `EXTRACT` -/

theorem exec_extract (s : State) : exec .extract s = .next (s.latchRecord (extractRecord s.P)) := rfl

/-- The identifier's three bytes, first byte most significant, laid into its container by shifts (R66, R136). -/
theorem setWidth_append_bytes (a b c : Byte) :
    (a ++ b ++ c).setWidth 32 = (a.setWidth 32 <<< 16) ||| (b.setWidth 32 <<< 8) ||| c.setWidth 32 := by
  refine BitVec.eq_of_getLsbD_eq fun i hi => ?_
  simp only [BitVec.getLsbD_setWidth, BitVec.getLsbD_append, BitVec.getLsbD_or, BitVec.getLsbD_shiftLeft,
    decide_eq_true hi, Bool.true_and]
  rcases lt_or_ge i 8 with hlow | hlow
  · simp [hlow, show i < 16 by omega]
  · have hc : c.getLsbD i = false := BitVec.getLsbD_of_ge c i hlow
    rcases lt_or_ge i 16 with hmid | hmid
    · simp [hc, hmid, not_lt.mpr hlow, show i - 8 < 8 by omega, show i - 8 < 32 by omega]
    · have hb : b.getLsbD (i - 8) = false := BitVec.getLsbD_of_ge b (i - 8) (by omega)
      simp [hb, hc, not_lt.mpr hlow, not_lt.mpr hmid, show ¬ i - 8 < 8 by omega, show i - 8 - 8 = i - 16 by omega,
        show i - 16 < 32 by omega]

/-- Settles O28: the fields of `extractRecord` are those of the statement by definition, but for the identifier, whose
bytes the model joins and the statement shifts. -/
theorem extractBuildsTheRecord : Obligations.ExtractBuildsTheRecord := by
  refine ⟨decode_phase_code Config.mcOne .extract, fun s => ⟨?_, rfl, rfl⟩⟩
  rw [← setWidth_append_bytes]
  exact exec_extract s

/-- The record is a function of bytes 0 to 5 (R144). -/
theorem extractRecord_congr {P Q : Payload} (h : ∀ i, i < 6 → pbyte Q i = pbyte P i) :
    extractRecord Q = extractRecord P := by
  simp only [extractRecord, Config.idHighByte, Config.idMiddleByte, Config.idLowByte, Config.flagsByte,
    Config.maybetempByte, Config.depthByte, h 0 (by decide), h 1 (by decide), h 2 (by decide), h 3 (by decide),
    h 4 (by decide), h 5 (by decide)]

/-- Settles O30: the two states' records are `extractRecord` of payloads that agree on bytes 0 to 5. -/
theorem bytesSixAndSevenDoNotReachTheRecord : Obligations.BytesSixAndSevenDoNotReachTheRecord :=
  fun s Q hagree => ⟨_, _, exec_extract s, exec_extract { s with P := Q }, extractRecord_congr hagree⟩

/-! ### The binary64 rendering (R145) -/

/-- The three fields of a nonnegative binary64 word laid out from its biased exponent and its fraction. -/
theorem binary64_fields {E F : Nat} (hE : E < 2 ^ 11) (hF : F < 2 ^ 52) :
    (BitVec.ofNat 64 (E * 2 ^ 52 + F)).getLsbD 63 = false
    ∧ ((BitVec.ofNat 64 (E * 2 ^ 52 + F)).extractLsb' 52 11).toNat = E
    ∧ ((BitVec.ofNat 64 (E * 2 ^ 52 + F)).extractLsb' 0 52).toNat = F := by
  have hword : (BitVec.ofNat 64 (E * 2 ^ 52 + F)).toNat = E * 2 ^ 52 + F := by
    rw [BitVec.toNat_ofNat, Nat.mod_eq_of_lt (by omega)]
  refine ⟨?_, ?_, ?_⟩
  · rw [BitVec.getLsbD, hword]
    exact Nat.testBit_lt_two_pow (by omega)
  · rw [BitVec.extractLsb'_toNat, hword, Nat.shiftRight_eq_div_pow]
    omega
  · rw [BitVec.extractLsb'_toNat, hword, Nat.shiftRight_zero]
    omega

/-- The scaled significand of a byte has its leading one at bit 52: the fraction is what stands below it. -/
theorem significand_eq {m : Nat} (hm : m ≠ 0) (he : m.log2 ≤ 52) :
    2 ^ 52 + m * 2 ^ (52 - m.log2) % 2 ^ 52 = m * 2 ^ (52 - m.log2) := by
  have hsplit : 2 ^ m.log2 * 2 ^ (52 - m.log2) = 2 ^ 52 := by
    rw [← pow_add, Nat.add_sub_cancel' he]
  have hlow : 2 ^ 52 ≤ m * 2 ^ (52 - m.log2) :=
    hsplit ▸ Nat.mul_le_mul_right _ (Nat.log2_self_le hm)
  have hhigh : m * 2 ^ (52 - m.log2) < 2 * 2 ^ 52 := by
    rw [← hsplit, ← Nat.mul_assoc, ← Nat.pow_succ']
    exact Nat.mul_lt_mul_of_pos_right Nat.lt_log2_self (Nat.two_pow_pos _)
  omega

/-- The scaled significand times two to the biased exponent of R145 is a quarter of `m`, times `2 ^ 1075`. -/
theorem significand_scaled {m e : Nat} (he : e ≤ 52) :
    m * 2 ^ (52 - e) * 2 ^ (1023 + e - 2) * 4 = m * 2 ^ 1075 := by
  rw [show (4 : Nat) = 2 ^ 2 from rfl, Nat.mul_assoc, Nat.mul_assoc, ← pow_add, ← pow_add,
    show 52 - e + (1023 + e - 2 + 2) = 1075 by omega]

theorem temperatureBinary64_of_ne {m : Byte} (hm : m ≠ 0#8) : temperatureBinary64 m =
    BitVec.ofNat 64 ((1023 + Nat.log2 m.toNat - 2) * 2 ^ 52 + m.toNat * 2 ^ (52 - Nat.log2 m.toNat) % 2 ^ 52) :=
  if_neg hm

/-- Settles O33: the exponent and the fraction fit their fields, so the fields read back as laid out, and the
significand with its leading one is the byte shifted up. -/
theorem temperatureRenderingIsExact : Obligations.TemperatureRenderingIsExact := by
  refine ⟨rfl, fun m hm => ?_⟩
  have hm0 : m.toNat ≠ 0 := fun h => hm (BitVec.eq_of_toNat_eq h)
  have he : m.toNat.log2 < 8 := (Nat.log2_lt hm0).mpr m.isLt
  obtain ⟨hsign, hexponent, hfraction⟩ := binary64_fields (E := 1023 + m.toNat.log2 - 2) (by omega)
    (Nat.mod_lt (m.toNat * 2 ^ (52 - m.toNat.log2)) (Nat.two_pow_pos 52))
  rw [temperatureBinary64_of_ne hm]
  refine ⟨hsign, hexponent, hfraction, ?_⟩
  rw [hexponent, hfraction, significand_eq hm0 (by omega), significand_scaled (by omega)]

end Sys2Proof.Machine
end

section
/-! PROOFS. The record emitter (R150): `EMIT` appends the record of the record register to the sink's sequence and
counts it; the strobe stands in its step. -/

namespace Sys2Proof.Machine

/-- The record as the sink receives it, field by field, with the spec's model string and divisor (R139, R150). -/
theorem toSink_eq (r : RecordReg) : r.toSink =
    { model := "Oil-Proteus"
      id := r.id.toNat
      flags := r.flags.toNat
      maybetemp := r.maybetemp.toNat
      temperatureC := (r.tempQ2.toNat : Rat) / 4
      bindingCountdown := r.bindingCountdown.toNat
      depth := r.depth.toNat } := rfl

/-- `EMIT` writes `sink`, `count` and `phase`, and nothing else (R150). -/
theorem exec_emit (s : State) : exec .emit s = .next
    { s with sink := s.sink ++ [s.record.toSink], count := s.count + 1, phase := .resume } := rfl

/-- The strobe stands exactly in the steps of phase `EMIT` that `rst` does not take (R21, R180). -/
theorem recValid_eq_true_iff {s : State} : s.recValid = true ↔ s.phase = .emit ∧ s.port.rst = false := by
  rw [State.recValid, Bool.and_eq_true, decide_eq_true_iff, Bool.not_eq_true']

/-- Settles O31: code 9 is the code of `EMIT`; `exec_emit` is its whole next state, with the record handed over written
out by `toSink_eq`. -/
theorem emitHandsOverOneRecord : Obligations.EmitHandsOverOneRecord := by
  refine ⟨decode_phase_code Config.mcOne .emit, fun s => ⟨?_, fun hphase hrst => ?_⟩⟩
  · rw [exec_emit, toSink_eq]
  · exact recValid_eq_true_iff.mpr ⟨hphase, hrst⟩

end Sys2Proof.Machine
end

section
/-! PROOFS. `rst` and a `start` raised too early (R180, R187, R192): `rst` takes the step and clears the core, and the
step of a working phase does not depend on `start`. -/

namespace Sys2Proof.Machine

/-- `rst` takes the step's place in every phase (R180, log 22). -/
theorem step_of_rst {s : State} (hrst : s.port.rst = true) : step s = .next s.popPort.hardReset := by
  rcases step_cases s with ⟨-, hstep⟩ | ⟨hlow, -⟩
  · exact hstep
  · exact absurd hrst (by simp [hlow])

/-- After `rst` every byte of the payload register is zero (R33). -/
theorem pbyte_hardReset (s : State) (i : Nat) : pbyte s.hardReset.P i = 0#8 := pbyte_pzero i

/-- The strobe stands in no step of a phase other than `EMIT` (R21). -/
theorem recValid_eq_false {s : State} (hphase : s.phase ≠ .emit) : s.recValid = false :=
  Bool.eq_false_iff.mpr fun h => hphase (recValid_eq_true_iff.mp h).1

/-- Settles O1: the next state is `hardReset` on sampled ports, which writes the core's registers and nothing else. -/
theorem rstResetsEveryRegister : Obligations.RstResetsEveryRegister := by
  intro s hrst
  have hvalid : s.popPort.hardReset.recValid = false := recValid_eq_false (by simp)
  exact ⟨_, step_of_rst hrst, rfl, rfl, rfl, rfl, rfl, rfl, rfl, fun i _ => pbyte_hardReset s.popPort i, rfl, rfl, rfl,
    rfl, rfl, hvalid, rfl, rfl, rfl, rfl⟩

/-- Once sampled, the ports of the step are forgotten (log 6). -/
@[simp] theorem withPort_popPort (s : State) (p : PortIn) : (s.withPort p).popPort = s.popPort := rfl

/-- While busy only `rst` of the ports matters to a step: with it low, any two values of `start` and of `NBITS` give
the same step (R25, R187). -/
theorem step_withPort_of_busy {s : State} {p : PortIn} (hbusy : s.busy = true) (hrst : s.port.rst = false)
    (hp : p.rst = false) : step s = step (s.withPort p) := by
  have hw : Phase.isRest s.phase = false := busy_eq_true.mp hbusy
  calc step s = exec (phaseInstr s.phase) s.popPort := step_of_working hrst rfl hw
    _ = exec (phaseInstr s.phase) (s.withPort p).popPort := by rw [withPort_popPort]
    _ = step (s.withPort p) := (step_of_working (s := s.withPort p) hp rfl hw).symm

/-- Settles O4: the command leaves a busy state alone, and a busy step is the same for every value of `start`, low
included. -/
theorem startWhileBusyIsIgnored : Obligations.StartWhileBusyIsIgnored :=
  fun _ hbusy => ⟨exec_start_of_busy hbusy, fun hrst => step_withPort_of_busy hbusy hrst rfl⟩

end Sys2Proof.Machine
end

section
/-! PROOFS. Encodings (R60 to R64, R70 to R72): format by format, the decoder and the encoder are each other's inverse,
and a word that no row of the table has is refused. -/

namespace Sys2Proof.Machine

/-! ### From the word to the instruction and back -/

/-- The one word of `SYNC8` that is an instruction (R61). -/
theorem encode_of_decodeSync8 {w : BitVec 8} {i : Instr} (mc : McOne) (h : decodeSync8 w = .ok i) :
    encode mc i = (.sync8, w.toNat) := by
  unfold decodeSync8 at h
  split at h
  · rename_i hw
    cases h
    rw [hw]
    rfl
  · cases h

/-- Each pair is the word of its symbol, under either value of `MC_ONE` (R62). -/
theorem encode_decodeMsym2 (mc : McOne) (w : BitVec 2) : encode mc (decodeMsym2 mc w) = (.msym2, w.toNat) := by
  cases mc with
  | pair01 => revert w; decide
  | pair10 => revert w; decide

/-- The two words of `POST2` that are instructions (R63). -/
theorem encode_of_decodePost2 {w : BitVec 2} {i : Instr} (mc : McOne) (h : decodePost2 w = .ok i) :
    encode mc i = (.post2, w.toNat) := by
  unfold decodePost2 at h
  split at h
  · rename_i hw
    cases h
    rw [hw]
    rfl
  · split at h
    · rename_i hw
      cases h
      rw [hw]
      rfl
    · cases h

/-- A 64-bit value is the sum of its fields, each at its place (R64). -/
theorem encode_decodeFrame64 (mc : McOne) (w : BitVec 64) : encode mc (decodeFrame64 w) = (.frame64, w.toNat) := by
  have hw := w.isLt
  simp only [decodeFrame64_eq, encode_frame, BitVec.extractLsb'_toNat, Nat.shiftRight_eq_div_pow, Prod.mk.injEq,
    true_and]
  omega

/-- The word of a phase's operation is the phase's code (R12, R70). -/
theorem encode_phaseInstr (mc : McOne) (p : Phase) : encode mc (phaseInstr p) = (.phase4, (Phase.code p).toNat) := by
  cases p with
  | _ => rfl

/-- A code that decodes is the word of its operation (R70, R71). -/
theorem encode_of_decodePhase4 {w : BitVec 4} {i : Instr} (mc : McOne) (h : decodePhase4 w = .ok i) :
    encode mc i = (.phase4, w.toNat) := by
  unfold decodePhase4 at h
  split at h
  · rename_i p hp
    cases h
    rw [phaseOfCode_eq_some.mp hp, encode_phaseInstr]
  · cases h

/-- Settles O35: format by format; a word that is not too wide is the number of its bits, and the host command's bit 0
is 1. -/
theorem encodeInvertsDecode : Obligations.EncodeInvertsDecode := by
  intro mc f w i h
  have ofNat_of_lt {n : Nat} (hw : w < 2 ^ n) : (BitVec.ofNat n w).toNat = w := by
    rw [BitVec.toNat_ofNat, Nat.mod_eq_of_lt hw]
  cases f with
  | sync8 =>
    obtain ⟨hw, hdec⟩ := ite_eq_iff.mp h |>.resolve_right (by simp)
    rw [encode_of_decodeSync8 mc hdec, ofNat_of_lt (n := 8) hw]
  | msym2 =>
    obtain ⟨hw, hdec⟩ := ite_eq_iff.mp h |>.resolve_right (by simp)
    cases hdec
    rw [encode_decodeMsym2, ofNat_of_lt (n := 2) hw]
  | post2 =>
    obtain ⟨hw, hdec⟩ := ite_eq_iff.mp h |>.resolve_right (by simp)
    rw [encode_of_decodePost2 mc hdec, ofNat_of_lt (n := 2) hw]
  | frame64 =>
    obtain ⟨hw, hdec⟩ := ite_eq_iff.mp h |>.resolve_right (by simp)
    cases hdec
    rw [encode_decodeFrame64, ofNat_of_lt (n := 64) hw]
  | phase4 =>
    obtain ⟨hw, hdec⟩ := ite_eq_iff.mp h |>.resolve_right (by simp)
    rw [encode_of_decodePhase4 mc hdec, ofNat_of_lt (n := 4) hw]
  | hostcmd =>
    obtain ⟨hodd, hdec⟩ := ite_eq_iff.mp h |>.resolve_right (by simp)
    cases hdec
    have hodd : w % 2 = 1 := of_decide_eq_true hodd
    simp only [encode, Prod.mk.injEq, true_and]
    omega

/-! ### From the instruction to the word and back -/

/-- Every 64-bit value is a frame (R64). -/
theorem decode_frame64 (mc : McOne) (w : BitVec 64) : decode mc .frame64 w.toNat = .ok (decodeFrame64 w) := by
  have hwidth : w.toNat < 2 ^ formatWidth .frame64 := w.isLt
  simp only [decode, if_pos hwidth, BitVec.ofNat_toNat, BitVec.setWidth_eq]

/-- The fields read back from the sum that lays them out (R64). -/
theorem decodeFrame64_of_toNat {w : BitVec 64} {u : BitVec 24} {f t d x c : Byte} (h : w.toNat = u.toNat * 2 ^ 40
    + f.toNat * 2 ^ 32 + t.toNat * 2 ^ 24 + d.toNat * 2 ^ 16 + x.toNat * 2 ^ 8 + c.toNat) :
    decodeFrame64 w = .frame u f t d x c := by
  have hu := u.isLt
  have hf := f.isLt
  have ht := t.isLt
  have hd := d.isLt
  have hx := x.isLt
  have hc := c.isLt
  have field {n : Nat} {v : BitVec n} (k : Nat) (hv : w.toNat / 2 ^ k % 2 ^ n = v.toNat) : w.extractLsb' k n = v :=
    BitVec.eq_of_toNat_eq (by rw [BitVec.extractLsb'_toNat, Nat.shiftRight_eq_div_pow, hv])
  rw [decodeFrame64_eq, field (v := u) 40 (by omega), field (v := f) 32 (by omega), field (v := t) 24 (by omega),
    field (v := d) 16 (by omega), field (v := x) 8 (by omega), field (v := c) 0 (by omega)]

/-- The word of a frame is the frame's (R64). -/
theorem decode_encode_frame (mc : McOne) (u : BitVec 24) (f t d x c : Byte) :
    decode mc .frame64 (encode mc (.frame u f t d x c)).2 = .ok (.frame u f t d x c) := by
  have hwidth : (encode mc (.frame u f t d x c)).2 < 2 ^ 64 := Laws.EncodeFits.frame u f t d x c mc rfl
  rw [encode_frame] at hwidth ⊢
  have hword := Nat.mod_eq_of_lt hwidth
  rw [← BitVec.toNat_ofNat] at hword
  rw [← decodeFrame64_of_toNat hword, ← decode_frame64, hword]

/-- The word of `START` is odd, and half of it is the operand (R72, log 19). -/
theorem decode_encode_start (mc : McOne) (n : Nat) : decode mc .hostcmd (2 * n + 1) = .ok (.start n) := by
  have hodd : (2 * n + 1) % 2 = 1 := by omega
  have hhalf : (2 * n + 1) / 2 = n := by omega
  rw [decode, hhalf, decide_eq_true hodd]
  rfl

/-- Settles O34: an instruction is a symbol, a postamble or the preamble, a frame, a phase's operation, or the host
command. -/
theorem decodeInvertsEncode : Obligations.DecodeInvertsEncode := by
  intro mc i _
  cases i with
  | preamble => exact rfl
  | ms0 => cases mc with | _ => exact rfl
  | ms1 => cases mc with | _ => exact rfl
  | msx0 => cases mc with | _ => exact rfl
  | msx1 => cases mc with | _ => exact rfl
  | pa0 => exact rfl
  | pa1 => exact rfl
  | frame u f t d x c => exact decode_encode_frame mc u f t d x c
  | search => exact decode_phase_code mc .search
  | guard => exact decode_phase_code mc .guard
  | skip => exact decode_phase_code mc .skip
  | mdec => exact decode_phase_code mc .mdec
  | lenchk => exact decode_phase_code mc .lenchk
  | postchk => exact decode_phase_code mc .postchk
  | crcchk => exact decode_phase_code mc .crcchk
  | extract => exact decode_phase_code mc .extract
  | emit => exact decode_phase_code mc .emit
  | resume => exact decode_phase_code mc .resume
  | finish => exact decode_phase_code mc .finish
  | idle => exact decode_phase_code mc .idle
  | done => exact decode_phase_code mc .done
  | start n => exact decode_encode_start mc n

/-! ### Words of the tables, and words that no row has -/

/-- Settles O36: the short words by computing the decoder, the 64-bit word by the layout of its fields. -/
theorem wordsDecodeAsTheTablesSay : Obligations.WordsDecodeAsTheTablesSay := by
  refine ⟨rfl, rfl, rfl, decode_phase_code _ .search, decode_phase_code _ .mdec, decode_phase_code _ .idle,
    decode_phase_code _ .done, decode_encode_start _ 138, ?_⟩
  have hframe := decode_encode_frame .pair01 0x123456#24 0x00#8 0x34#8 0x2A#8 0x00#8 0xDF#8
  rwa [encode_frame] at hframe

/-- Settles O37: `SYNC8` has the one word 0x58, `POST2` and `PHASE4` leave two and three words over, and the host
command's bit 0 is `start`. -/
theorem reservedPatternsAreRefused : Obligations.ReservedPatternsAreRefused := by
  refine fun mc => ⟨fun w hw hne => ?_, fun w hw => ?_, fun w hlow hhigh => ?_, fun n => ?_⟩
  · have hpre : BitVec.ofNat 8 w ≠ Config.preamble := fun h => hne (by
      have := congrArg BitVec.toNat h
      rwa [BitVec.toNat_ofNat, Nat.mod_eq_of_lt hw] at this)
    exact (if_pos hw).trans (if_neg hpre)
  · rcases hw with rfl | rfl
    · exact rfl
    · exact rfl
  · interval_cases w
    · exact rfl
    · exact rfl
    · exact rfl
  · have heven : ¬ 2 * n % 2 = 1 := by omega
    rw [decode, decide_eq_false heven]
    rfl

end Sys2Proof.Machine
end

section
/-! PROOFS. A step as a relation: what the operation of each phase can do, said once, and a step of the machine as
`rst`, an honoured `START`, or the operation of the phase (R12, R90, R180). What holds of every step is a case analysis
of it: the edges of the phase graph (R91), and what the sink and `count` do (R151). -/

namespace Sys2Proof.Machine

/-! ### The operation of a phase -/

/-- All that the operation of the phase can do, one constructor for each way on (R12, R70). -/
inductive PhaseStep (s : State) : State → Prop
  | rest : Phase.isRest s.phase = true → PhaseStep s s
  | found {p : Nat} : s.phase = .search → s.cursor ≤ p → s.occursAt p → PhaseStep s (s.takeMatch p)
  | notFound : s.phase = .search → PhaseStep s s.takeNoMatch
  | bodyFits : s.phase = .guard → s.mpos + 136 ≤ s.nbits → PhaseStep s (s.goto .skip)
  | bodyCut : s.phase = .guard → s.nbits < s.mpos + 136 → PhaseStep s (s.goto .finish)
  | skip : s.phase = .skip → PhaseStep s (s.freshCandidate.goto .mdec)
  | decoded {t : State} {k : Nat} : s.phase = .mdec → LoopEnd { s with P := pzero, ndec := 0 } t 64 k →
      PhaseStep s { s with P := t.P, ndec := k, dcur := t.dcur, phase := .lenchk }
  | lengthOk : s.phase = .lenchk → s.ndec = 64 → PhaseStep s (s.goto .postchk)
  | lengthBad : s.phase = .lenchk → s.ndec ≠ 64 → PhaseStep s (s.goto .resume)
  | postOk : s.phase = .postchk → s.dcur + 2 ≤ s.nbits → s.readBit s.dcur = some s.lastBit →
      s.readBit (s.dcur + 1) = some s.lastBit → PhaseStep s (s.goto .crcchk)
  | postBad : s.phase = .postchk → PhaseStep s (s.goto .resume)
  | crcOk : s.phase = .crcchk → crcOk s.P = true →
      PhaseStep s { s with crc := payloadCrc s.P, phase := .extract }
  | crcBad : s.phase = .crcchk → PhaseStep s { s with crc := payloadCrc s.P, phase := .resume }
  | extract : s.phase = .extract → PhaseStep s (s.latchRecord (extractRecord s.P))
  | emit : s.phase = .emit → PhaseStep s (s.emitRecord.goto .resume)
  | resume : s.phase = .resume → PhaseStep s (s.goto .search)
  | finish : s.phase = .finish → PhaseStep s (s.goto .done)

theorem phaseStep_of_execSearch {s t : State} (hp : s.phase = .search) (h : exec .search s = .next t) :
    PhaseStep s t := by
  rcases search_spec s s.cursor with ⟨p, hs, hle, hm, -⟩ | ⟨hs, -⟩ | ⟨hs, -⟩
  · obtain rfl := next_inj.mp ((exec_search_of_found hs).symm.trans h)
    exact .found hp hle (match8_eq_true_iff_occursAt.mp hm)
  · obtain rfl := next_inj.mp ((exec_search_of_notFound hs).symm.trans h)
    exact .notFound hp
  · rw [show exec .search s = execSearch s from rfl, execSearch, hs] at h
    cases h

theorem phaseStep_of_execPostchk {s t : State} (hp : s.phase = .postchk) (h : exec .postchk s = .next t) :
    PhaseStep s t := by
  rcases postOk_spec s with ⟨-, hok⟩ | ⟨hfit, hrow, hok⟩ | ⟨-, -, hok⟩
  · obtain rfl := next_inj.mp ((exec_postchk_of_postOk hok).symm.trans h)
    exact .postBad hp
  · rw [exec_postchk_of_postOk hok, afterPost_decide, next_inj] at h
    subst h
    split
    · rename_i hbits
      exact .postOk hp hfit (readBit_eq_some.mpr ⟨by omega, hbits.1⟩) (readBit_eq_some.mpr ⟨by omega, hbits.2⟩)
    · exact .postBad hp
  · rw [show exec .postchk s = execPostchk s from rfl, execPostchk, hok] at h
    cases h

theorem phaseStep_of_execCrcchk {s t : State} (hp : s.phase = .crcchk) (h : exec .crcchk s = .next t) :
    PhaseStep s t := by
  rw [exec_crcchk, next_inj] at h
  subst h
  split
  · rename_i heq
    exact .crcOk hp (decide_eq_true heq)
  · exact .crcBad hp

/-- The operation of a phase answers one of the ways on. -/
theorem phaseStep_of_exec {s t : State} (h : exec (phaseInstr s.phase) s = .next t) : PhaseStep s t := by
  generalize hp : s.phase = p at h
  cases p with
  | idle => obtain rfl := next_inj.mp h; exact .rest (by rw [hp]; rfl)
  | search => exact phaseStep_of_execSearch hp h
  | guard =>
    rw [show phaseInstr .guard = .guard from rfl, exec_guard, next_inj] at h
    subst h
    split
    · exact .bodyFits hp ‹_›
    · exact .bodyCut hp (by omega)
  | skip => obtain rfl := next_inj.mp h; exact .skip hp
  | mdec =>
    rcases execMdec_spec s with ⟨u, k, hu, hend⟩ | ⟨hu, -⟩
    · obtain rfl := next_inj.mp (hu.symm.trans h); exact .decoded hp hend
    · cases hu.symm.trans h
  | lenchk =>
    rw [show phaseInstr .lenchk = .lenchk from rfl, exec_lenchk, next_inj] at h
    subst h
    split
    · exact .lengthOk hp ‹_›
    · exact .lengthBad hp ‹_›
  | postchk => exact phaseStep_of_execPostchk hp h
  | crcchk => exact phaseStep_of_execCrcchk hp h
  | extract => obtain rfl := next_inj.mp h; exact .extract hp
  | emit => obtain rfl := next_inj.mp h; exact .emit hp
  | resume => obtain rfl := next_inj.mp h; exact .resume hp
  | finish => obtain rfl := next_inj.mp h; exact .finish hp
  | done => obtain rfl := next_inj.mp h; exact .rest (by rw [hp]; rfl)

/-! ### A step of the machine -/

/-- A step honours `START`: the core is at rest and `start` is high (R25, R90). -/
abbrev State.honoursStart (s : State) : Prop := s.busy = false ∧ s.port.start = true

/-- Where `START` is not honoured, a step with `rst` low is the operation of the phase (R12). -/
theorem step_of_not_honoursStart {s : State} (hrst : s.port.rst = false) (h : ¬ s.honoursStart) :
    step s = exec (phaseInstr s.phase) s.popPort := by
  rcases step_cases s with ⟨hhigh, -⟩ | ⟨-, hstep⟩
  · exact absurd hhigh (by simp [hrst])
  · rcases fetch_cases s with ⟨hrest, hstart, -⟩ | ⟨-, hfetch⟩
    · exact absurd ⟨by simpa [State.busy] using hrest, hstart⟩ h
    · rw [hstep, hfetch]

/-- All that a step with a next state can be. -/
inductive StepKind (s t : State) : Prop
  | rst : s.port.rst = true → t = s.popPort.hardReset → StepKind s t
  | start : s.port.rst = false → s.honoursStart → t = s.popPort.startInvocation s.port.nbits → StepKind s t
  | phase : s.port.rst = false → ¬ s.honoursStart → PhaseStep s.popPort t → StepKind s t

theorem stepKind_of_step {s t : State} (h : step s = .next t) : StepKind s t := by
  cases hrst : s.port.rst with
  | true => exact .rst hrst (next_inj.mp (h.symm.trans (step_of_rst hrst)))
  | false =>
    by_cases hstart : s.honoursStart
    · exact .start hrst hstart (next_inj.mp (h.symm.trans (step_of_start hstart.1 hrst hstart.2)))
    · exact .phase hrst hstart (phaseStep_of_exec ((step_of_not_honoursStart hrst hstart).symm.trans h))

/-- A busy step with `rst` low is the operation of the phase. -/
theorem phaseStep_of_busy {s t : State} (hrst : s.port.rst = false) (hbusy : s.busy = true) (h : step s = .next t) :
    PhaseStep s.popPort t :=
  phaseStep_of_exec ((step_of_not_honoursStart hrst fun hs => absurd hs.1 (by simp [hbusy])).symm.trans h)

/-- Settles O38: an honoured `START` is `startReinitialisesTheCore`'s, and the instruction that the code of the phase
decodes to is the phase's operation. -/
theorem stepRunsTheDecodedInstruction : Obligations.StepRunsTheDecodedInstruction := by
  refine fun s hrst => ⟨fun h => startReinitialisesTheCore.2.1 s h.1 hrst h.2, fun i hno hdec => ?_⟩
  rw [decode_phase_code, Except.ok.injEq] at hdec
  exact hdec ▸ step_of_not_honoursStart hrst hno

/-! ### The phase graph -/

/-- The operation of a phase follows the edges of R91. -/
theorem PhaseStep.mayGo {s t : State} (h : PhaseStep s t) : Phase.mayGo s.phase t.phase := by
  cases h with
  | rest hp =>
    generalize s.phase = p at hp ⊢
    cases p with
    | idle => exact rfl
    | done => exact rfl
    | _ => cases hp
  | found hp => rw [hp]; exact .inl rfl
  | notFound hp => rw [hp]; exact .inr rfl
  | bodyFits hp => rw [hp]; exact .inl rfl
  | bodyCut hp => rw [hp]; exact .inr rfl
  | skip hp => rw [hp]; exact rfl
  | decoded hp => rw [hp]; exact rfl
  | lengthOk hp => rw [hp]; exact .inl rfl
  | lengthBad hp => rw [hp]; exact .inr rfl
  | postOk hp => rw [hp]; exact .inl rfl
  | postBad hp => rw [hp]; exact .inr rfl
  | crcOk hp => rw [hp]; exact .inl rfl
  | crcBad hp => rw [hp]; exact .inr rfl
  | extract hp => rw [hp]; exact rfl
  | emit hp => rw [hp]; exact rfl
  | resume hp => rw [hp]; exact rfl
  | finish hp => rw [hp]; exact rfl

/-- Settles O40: an honoured `START` enters `SEARCH`, and every other step with `rst` low is the operation of the
phase. -/
theorem controlFollowsThePhaseGraph : Obligations.ControlFollowsThePhaseGraph := by
  intro s t h hrst
  cases stepKind_of_step h with
  | rst hhigh => exact absurd hhigh (by simp [hrst])
  | start _ hstart ht => rw [if_pos hstart, ht]; rfl
  | phase _ hno hstep => rw [if_neg hno]; exact hstep.mayGo

/-! ### The rest phases -/

/-- Settles O14: a rest phase's operation leaves the state alone, and that is its step while `start` is low. -/
theorem restPhasesWait : Obligations.RestPhasesWait := by
  refine ⟨fun s => ⟨rfl, rfl⟩, fun s hrest hrst hstart => ?_⟩
  have hno : ¬ s.honoursStart := fun h => absurd h.2 (by simp [hstart])
  have hphase : Phase.isRest s.phase = true := by simpa [State.busy] using hrest
  rw [step_of_not_honoursStart hrst hno]
  generalize s.phase = p at hphase
  cases p with
  | idle => exact rfl
  | done => exact rfl
  | _ => cases hphase

/-- Settles O13: code 11 is the code of `FINISH`, which writes `phase`; in `DONE` the status outputs and the result
follow. -/
theorem finishEndsTheInvocation : Obligations.FinishEndsTheInvocation :=
  ⟨decode_phase_code Config.mcOne .finish, fun s => ⟨s.goto .done, rfl, rfl, rfl, rfl, rfl⟩⟩

/-- Settles O2: the fields of the literal, and every byte of a replicated payload. -/
theorem resetStateValues : Obligations.ResetStateValues :=
  ⟨rfl, rfl, rfl, rfl, rfl, rfl, rfl, fun i _ => pbyte_pzero i, rfl, rfl, rfl, rfl, rfl, recValid_eq_false (by decide),
    rfl, rfl, rfl, rfl⟩

/-! ### The sink and `count` -/

/-- `EMIT` apart, no operation of a phase touches the sink or `count` (R150, R151). -/
theorem PhaseStep.sink_count {s t : State} (h : PhaseStep s t) (hp : s.phase ≠ .emit) :
    t.sink = s.sink ∧ t.count = s.count := by
  cases h with
  | emit hemit => exact absurd hemit hp
  | _ => exact ⟨rfl, rfl⟩

/-- `EMIT` hands over the record in the register, counts it and goes to `RESUME` (R150). -/
theorem PhaseStep.eq_of_emit {s t : State} (h : PhaseStep s t) (hp : s.phase = .emit) :
    t = s.emitRecord.goto .resume := by
  cases h with
  | emit => rfl
  | rest hrest => rw [hp] at hrest; cases hrest
  | _ hother => cases hp.symm.trans hother

/-- Settles O32: `rst` and an honoured `START` clear `count` in a step without the strobe; of the phases' operations
`EMIT` alone, the one with the strobe, moves the sink and `count`. -/
theorem recordsAndCountMoveTogether : Obligations.RecordsAndCountMoveTogether := by
  intro s t h
  cases stepKind_of_step h with
  | rst hrst ht =>
    subst ht
    exact .inr ⟨by simp [State.recValid, hrst], rfl, by simp [hrst]⟩
  | start _ hstart ht =>
    have hphase : s.phase ≠ .emit := fun hp => absurd hstart.1 (by simp [State.busy, hp, Phase.isRest])
    subst ht
    exact .inr ⟨recValid_eq_false hphase, rfl, by rw [if_pos (.inr hstart)]; rfl⟩
  | phase hrst hno hstep =>
    by_cases hp : s.phase = .emit
    · rw [hstep.eq_of_emit hp]
      exact .inl ⟨recValid_eq_true_iff.mpr ⟨hp, hrst⟩, rfl, rfl⟩
    · obtain ⟨hsink, hcount⟩ := hstep.sink_count hp
      exact .inr ⟨recValid_eq_false hp, hsink, by rw [if_neg (by simpa [hrst] using hno)]; exact hcount⟩

end Sys2Proof.Machine
end

section
/-! PROOFS. The invariant (R34): its clauses that speak of no phase, and what the others say in each phase, kept by the
operation of every phase, by `START` and by the ports' sampling. -/

namespace Sys2Proof.Machine

/-! ### The invariant, phase by phase -/

/-- The clauses of the invariant that hold in every phase. -/
structure State.Steady (s : State) : Prop where
  nbits_le : s.nbits ≤ s.rowLen
  cursor_le : s.cursor ≤ s.nbits
  mpos_le : s.mpos ≤ s.nbits
  dcur_le : s.dcur ≤ s.nbits
  ndec_le : s.ndec ≤ 64
  tail_zero : ∀ k, s.ndec ≤ k → k < 64 → pbit s.P k = false
  count_cursor : 8 * s.count ≤ s.cursor
  count_bound : 0 < s.count → 8 * s.count + 128 ≤ s.nbits
  count_sink : s.count ≤ s.sink.length
  id_top : s.record.id.toNat < 2 ^ 24
  temp_same : s.record.tempQ2 = s.record.maybetemp
  binding_gated : s.record.bindingCountdown = bindingCountdown s.record.flags s.record.depth
  mem_wf : Memory.wf s.mem

/-- A match is in hand, at or after the scan cursor (R34 (b), R80). -/
structure State.MatchAhead (s : State) : Prop where
  found : s.found = true
  window : s.mpos + 8 ≤ s.nbits
  ahead : s.cursor ≤ s.mpos

/-- A candidate is in hand: its body lies in the buffer and the scan cursor stands behind its preamble (R34 (c)). -/
structure State.Candidate (s : State) : Prop where
  found : s.found = true
  body : s.mpos + 136 ≤ s.nbits
  cursor : s.cursor = s.mpos + 8

/-- A candidate that is not counted yet, its 64 bits decoded (R34 (f)). -/
structure State.FullCandidate (s : State) : Prop extends s.Candidate where
  fresh : 8 * (s.count + 1) ≤ s.cursor
  ndec : s.ndec = 64
  dcur : s.dcur = s.mpos + 136

/-- The decoder's cursor stands in the body or at its end (R34 (e)). -/
abbrev State.DcurInBody (s : State) : Prop := s.mpos + 8 ≤ s.dcur ∧ s.dcur ≤ s.mpos + 136

/-- What the invariant says of the candidate in a phase (R34 (b) to (h)). -/
def State.AtPhase (s : State) : Phase → Prop
  | .guard => s.MatchAhead
  | .skip => s.MatchAhead ∧ s.mpos + 136 ≤ s.nbits
  | .mdec => s.Candidate ∧ 8 * (s.count + 1) ≤ s.cursor ∧ s.dcur = s.mpos + 8 ∧ s.ndec = 0 ∧ s.P = pzero
  | .lenchk => s.Candidate ∧ 8 * (s.count + 1) ≤ s.cursor ∧ s.DcurInBody ∧ (s.ndec = 64 → s.dcur = s.mpos + 136)
  | .postchk => s.FullCandidate
  | .crcchk => s.FullCandidate ∧ s.dcur + 2 ≤ s.nbits
  | .extract => s.FullCandidate ∧ s.dcur + 2 ≤ s.nbits ∧ s.crc = pbyte s.P 7
  | .emit => s.FullCandidate ∧ s.dcur + 2 ≤ s.nbits ∧ s.crc = pbyte s.P 7
  | .resume => s.Candidate ∧ s.DcurInBody
  | .idle => True
  | .search => True
  | .finish => True
  | .done => True

theorem State.Inv.steady {s : State} (h : s.Inv) : s.Steady where
  nbits_le := h.nbits_le
  cursor_le := h.cursor_le
  mpos_le := h.mpos_le
  dcur_le := h.dcur_le
  ndec_le := h.ndec_le
  tail_zero := h.tail_zero
  count_cursor := h.count_cursor
  count_bound := h.count_bound
  count_sink := h.count_sink
  id_top := h.id_top
  temp_same := h.temp_same
  binding_gated := h.binding_gated
  mem_wf := h.mem_wf

theorem State.Inv.matchAhead {s : State} (h : s.Inv) (hp : Phase.between s.phase .guard .skip) : s.MatchAhead := by
  obtain ⟨hfound, hwindow⟩ := h.found_match ⟨hp.1, le_trans hp.2 (by decide)⟩
  exact ⟨hfound, hwindow, h.match_after_cursor hp⟩

theorem State.Inv.candidate {s : State} (h : s.Inv) (hp : Phase.between s.phase .mdec .resume) : s.Candidate where
  found := (h.found_match ⟨le_trans (by decide) hp.1, hp.2⟩).1
  body := h.body_fits ⟨le_trans (by decide) hp.1, hp.2⟩
  cursor := h.past_preamble hp

theorem State.Inv.fullCandidate {s : State} (h : s.Inv) (hp : Phase.between s.phase .postchk .emit) :
    s.FullCandidate where
  toCandidate := h.candidate ⟨le_trans (by decide) hp.1, le_trans hp.2 (by decide)⟩
  fresh := h.count_candidate ⟨le_trans (by decide) hp.1, hp.2⟩
  ndec := (h.full_decode hp).1
  dcur := (h.full_decode hp).2

/-- The invariant's clauses for the phase the core is in. -/
theorem State.Inv.atPhase {s : State} (h : s.Inv) : s.AtPhase s.phase := by
  have within {a b p : Phase} (hp : s.phase = p) (ha : Phase.index a ≤ Phase.index p)
      (hb : Phase.index p ≤ Phase.index b) : Phase.between s.phase a b := by
    rw [hp]
    exact ⟨ha, hb⟩
  cases hp : s.phase with
  | guard => exact h.matchAhead (within hp (by decide) (by decide))
  | skip => exact ⟨h.matchAhead (within hp (by decide) (by decide)), h.body_fits (within hp (by decide) (by decide))⟩
  | mdec =>
    exact ⟨h.candidate (within hp (by decide) (by decide)), h.count_candidate (within hp (by decide) (by decide)),
      h.fresh_scratch hp⟩
  | lenchk =>
    exact ⟨h.candidate (within hp (by decide) (by decide)), h.count_candidate (within hp (by decide) (by decide)),
      h.dcur_bounds (within hp (by decide) (by decide)), h.full_cursor hp⟩
  | postchk => exact h.fullCandidate (within hp (by decide) (by decide))
  | crcchk =>
    exact ⟨h.fullCandidate (within hp (by decide) (by decide)), h.post_fits (within hp (by decide) (by decide))⟩
  | extract =>
    exact ⟨h.fullCandidate (within hp (by decide) (by decide)), h.post_fits (within hp (by decide) (by decide)),
      h.crc_match (within hp (by decide) (by decide))⟩
  | emit =>
    exact ⟨h.fullCandidate (within hp (by decide) (by decide)), h.post_fits (within hp (by decide) (by decide)),
      h.crc_match (within hp (by decide) (by decide))⟩
  | resume =>
    exact ⟨h.candidate (within hp (by decide) (by decide)), h.dcur_bounds (within hp (by decide) (by decide))⟩
  | _ => trivial

/-! ### What the table says in a range of phases -/

section
variable {s : State} {p : Phase}

theorem State.AtPhase.matchAhead (h : s.AtPhase p) (hp : Phase.between p .guard .skip) : s.MatchAhead := by
  cases p with
  | guard => exact h
  | skip => exact h.1
  | _ => exact absurd hp (by unfold Phase.between; decide)

theorem State.AtPhase.fullCandidate (h : s.AtPhase p) (hp : Phase.between p .postchk .emit) : s.FullCandidate := by
  cases p with
  | postchk => exact h
  | crcchk => exact h.1
  | extract => exact h.1
  | emit => exact h.1
  | _ => exact absurd hp (by unfold Phase.between; decide)

theorem State.AtPhase.candidate (h : s.AtPhase p) (hp : Phase.between p .mdec .resume) : s.Candidate := by
  cases p with
  | mdec => exact h.1
  | lenchk => exact h.1
  | resume => exact h.1
  | postchk => exact h.toCandidate
  | crcchk => exact h.1.toCandidate
  | extract => exact h.1.toCandidate
  | emit => exact h.1.toCandidate
  | _ => exact absurd hp (by unfold Phase.between; decide)

theorem State.AtPhase.found_match (h : s.AtPhase p) (hp : Phase.between p .guard .resume) :
    s.found = true ∧ s.mpos + 8 ≤ s.nbits := by
  by_cases hlow : Phase.index p ≤ Phase.index .skip
  · have hahead := h.matchAhead ⟨hp.1, hlow⟩
    exact ⟨hahead.found, hahead.window⟩
  · have hcand := h.candidate ⟨Nat.succ_le_of_lt (not_le.mp hlow), hp.2⟩
    have hbody := hcand.body
    exact ⟨hcand.found, by omega⟩

theorem State.AtPhase.body_fits (h : s.AtPhase p) (hp : Phase.between p .skip .resume) : s.mpos + 136 ≤ s.nbits := by
  rcases Nat.lt_or_eq_of_le hp.1 with hlt | heq
  · exact (h.candidate ⟨hlt, hp.2⟩).body
  · cases p with
    | skip => exact h.2
    | _ => exact absurd heq (by decide)

theorem State.AtPhase.fresh (h : s.AtPhase p) (hp : Phase.between p .mdec .emit) : 8 * (s.count + 1) ≤ s.cursor := by
  cases p with
  | mdec => exact h.2.1
  | lenchk => exact h.2.1
  | postchk => exact h.fresh
  | crcchk => exact h.1.fresh
  | extract => exact h.1.fresh
  | emit => exact h.1.fresh
  | _ => exact absurd hp (by unfold Phase.between; decide)

theorem State.FullCandidate.dcurInBody (h : s.FullCandidate) : s.DcurInBody := by
  have hdcur := h.dcur
  constructor <;> omega

theorem State.AtPhase.dcurInBody (h : s.AtPhase p) (hp : Phase.between p .lenchk .resume) : s.DcurInBody := by
  cases p with
  | lenchk => exact h.2.2.1
  | resume => exact h.2
  | postchk => exact State.FullCandidate.dcurInBody h
  | crcchk => exact h.1.dcurInBody
  | extract => exact h.1.dcurInBody
  | emit => exact h.1.dcurInBody
  | _ => exact absurd hp (by unfold Phase.between; decide)

theorem State.AtPhase.post_fits (h : s.AtPhase p) (hp : Phase.between p .crcchk .emit) : s.dcur + 2 ≤ s.nbits := by
  cases p with
  | crcchk => exact h.2
  | extract => exact h.2.1
  | emit => exact h.2.1
  | _ => exact absurd hp (by unfold Phase.between; decide)

theorem State.AtPhase.crc_match (h : s.AtPhase p) (hp : Phase.between p .extract .emit) : s.crc = pbyte s.P 7 := by
  cases p with
  | extract => exact h.2.2
  | emit => exact h.2.2
  | _ => exact absurd hp (by unfold Phase.between; decide)

end

/-- The clauses of every phase and those of the phase the core is in make up the invariant. -/
theorem inv_of_atPhase {s : State} (hs : s.Steady) (h : s.AtPhase s.phase) : s.Inv where
  nbits_le := hs.nbits_le
  cursor_le := hs.cursor_le
  mpos_le := hs.mpos_le
  dcur_le := hs.dcur_le
  ndec_le := hs.ndec_le
  found_match := h.found_match
  match_after_cursor hp := (h.matchAhead hp).ahead
  body_fits := h.body_fits
  past_preamble hp := (h.candidate hp).cursor
  fresh_scratch hp := by rw [hp] at h; exact h.2.2
  dcur_bounds := h.dcurInBody
  full_cursor hp := by rw [hp] at h; exact h.2.2.2
  full_decode hp := ⟨(h.fullCandidate hp).ndec, (h.fullCandidate hp).dcur⟩
  post_fits := h.post_fits
  crc_match := h.crc_match
  tail_zero := hs.tail_zero
  count_cursor := hs.count_cursor
  count_candidate := h.fresh
  count_bound := hs.count_bound
  count_sink := hs.count_sink
  id_top := hs.id_top
  temp_same := hs.temp_same
  binding_gated := hs.binding_gated
  mem_wf := hs.mem_wf

theorem inv_iff {s : State} : s.Inv ↔ s.Steady ∧ s.AtPhase s.phase :=
  ⟨fun h => ⟨h.steady, h.atPhase⟩, fun ⟨hs, h⟩ => inv_of_atPhase hs h⟩

/-! ### The operations keep it -/

/-- The decoder's loop on a candidate's body leaves its cursor in the body, at its end exactly after 64 bits, and no
bit beyond those it took (R34 (d) to (i)). -/
theorem LoopEnd.body_bounds {s t : State} {k : Nat} (h : LoopEnd { s with P := pzero, ndec := 0 } t 64 k)
    (hdcur : s.dcur = s.mpos + 8) (hfit : s.mpos + 136 ≤ s.nbits) :
    (s.mpos + 8 ≤ t.dcur ∧ t.dcur ≤ s.mpos + 136) ∧ (k = 64 → t.dcur = s.mpos + 136)
      ∧ ∀ j, k ≤ j → j < 64 → pbit t.P j = false := by
  have hle := h.le
  have ht : t.dcur = if k = 64 then s.dcur + 2 * 64 else s.dcur + 2 * (k + 1) :=
    h.dcur_eq (show s.dcur + 2 * 64 ≤ s.nbits by omega)
  refine ⟨?_, fun hk => ?_, fun j hj hj64 => ?_⟩
  · split at ht <;> omega
  · rw [if_pos hk] at ht
    omega
  · have hbit := h.bits le_rfl j hj64
    have hout : ¬ (0 ≤ j ∧ j < 0 + k) := by omega
    rw [hbit, decide_eq_false hout]
    simp

/-- The record `EXTRACT` latches has the shape R20, R139 and R140 ask for. -/
theorem extractRecord_shape (P : Payload) : (extractRecord P).id.toNat < 2 ^ 24
    ∧ (extractRecord P).tempQ2 = (extractRecord P).maybetemp
    ∧ (extractRecord P).bindingCountdown = bindingCountdown (extractRecord P).flags (extractRecord P).depth := by
  refine ⟨?_, rfl, rfl⟩
  have hid := (pbyte P 0 ++ pbyte P 1 ++ pbyte P 2).isLt
  have hwide : (extractRecord P).id.toNat = (pbyte P 0 ++ pbyte P 1 ++ pbyte P 2).toNat % 2 ^ 32 :=
    BitVec.toNat_setWidth ..
  exact hwide ▸ lt_of_le_of_lt (Nat.mod_le _ _) hid

/-- The clauses of every phase are kept. -/
theorem PhaseStep.keeps_steady {s t : State} (h : PhaseStep s t) (hs : s.Steady) (hp : s.AtPhase s.phase) :
    t.Steady := by
  cases h with
  | rest => exact hs
  | found _ _ hocc => exact { hs with mpos_le := le_trans (Nat.le_add_right _ 8) hocc.1 }
  | skip hphase =>
    rw [hphase] at hp
    obtain ⟨⟨-, hwindow, hahead⟩, hbody⟩ := hp
    have hcount := hs.count_cursor
    exact { hs with
      cursor_le := hwindow
      dcur_le := hwindow
      ndec_le := Nat.zero_le _
      tail_zero := fun k _ _ => pbit_pzero k
      count_cursor := le_trans hcount (le_trans hahead (Nat.le_add_right _ 8)) }
  | decoded hphase hend =>
    rw [hphase] at hp
    obtain ⟨hcand, -, hdcur, -⟩ := hp
    obtain ⟨⟨-, hhigh⟩, -, htail⟩ := hend.body_bounds hdcur hcand.body
    exact { hs with dcur_le := le_trans hhigh hcand.body, ndec_le := hend.le, tail_zero := htail }
  | extract =>
    obtain ⟨hid, htemp, hbinding⟩ := extractRecord_shape s.P
    exact { hs with id_top := hid, temp_same := htemp, binding_gated := hbinding }
  | emit hphase =>
    rw [hphase] at hp
    obtain ⟨⟨⟨-, hbody, hcursor⟩, hfresh, -⟩, -⟩ := hp
    have hcount := hs.count_sink
    exact { hs with
      count_cursor := hfresh
      count_bound := fun _ => show 8 * (s.count + 1) + 128 ≤ s.nbits by omega
      count_sink := by simpa using hcount }
  | _ => exact { hs with }

/-- The candidate's clauses hold in the phase the operation goes to. -/
theorem PhaseStep.keeps_atPhase {s t : State} (h : PhaseStep s t) (hs : s.Steady) (hp : s.AtPhase s.phase) :
    t.AtPhase t.phase := by
  cases h with
  | rest => exact hp
  | found _ hle hocc => exact ⟨rfl, hocc.1, hle⟩
  | bodyFits hphase hfit => rw [hphase] at hp; exact ⟨{ hp with }, hfit⟩
  | skip hphase =>
    rw [hphase] at hp
    obtain ⟨⟨hfound, -, hahead⟩, hbody⟩ := hp
    have hcount := hs.count_cursor
    exact ⟨⟨hfound, hbody, rfl⟩, show 8 * (s.count + 1) ≤ s.mpos + 8 by omega, rfl, rfl, rfl⟩
  | decoded hphase hend =>
    rw [hphase] at hp
    obtain ⟨hcand, hfresh, hdcur, -⟩ := hp
    obtain ⟨hbody, hfull, -⟩ := hend.body_bounds hdcur hcand.body
    exact ⟨{ hcand with }, hfresh, hbody, hfull⟩
  | lengthOk hphase hndec =>
    rw [hphase] at hp
    obtain ⟨hcand, hfresh, -, hfull⟩ := hp
    exact { hcand with fresh := hfresh, ndec := hndec, dcur := hfull hndec }
  | lengthBad hphase => rw [hphase] at hp; exact ⟨{ hp.1 with }, hp.2.2.1⟩
  | postOk hphase hfit => rw [hphase] at hp; exact ⟨{ hp with }, hfit⟩
  | postBad hphase =>
    rw [hphase] at hp
    have hfull : s.FullCandidate := hp
    exact ⟨{ hfull.toCandidate with }, hfull.dcurInBody⟩
  | crcOk hphase hok => rw [hphase] at hp; exact ⟨{ hp.1 with }, hp.2, of_decide_eq_true hok⟩
  | crcBad hphase => rw [hphase] at hp; exact ⟨{ hp.1.toCandidate with }, hp.1.dcurInBody⟩
  | extract hphase => rw [hphase] at hp; exact ⟨{ hp.1 with }, hp.2⟩
  | emit hphase => rw [hphase] at hp; exact ⟨{ hp.1.toCandidate with }, hp.1.dcurInBody⟩
  | _ => trivial

theorem PhaseStep.keeps_inv {s t : State} (h : PhaseStep s t) (hinv : s.Inv) : t.Inv := by
  obtain ⟨hs, hp⟩ := inv_iff.mp hinv
  exact inv_iff.mpr ⟨h.keeps_steady hs hp, h.keeps_atPhase hs hp⟩

/-- Sampling the ports touches nothing the invariant speaks of. -/
theorem State.Inv.popPort {s : State} (h : s.Inv) : s.popPort.Inv := { h with }

/-- A core whose registers are cleared meets the invariant, with a latched length that the row has (R33). -/
theorem inv_cleared {s : State} {p : Phase} {n : Nat} (hp : p = .idle ∨ p = .search) (hn : n ≤ s.rowLen)
    (hmem : Memory.wf s.mem) : (s.cleared p n).Inv := by
  have hid : RecordReg.zero.id.toNat < 2 ^ 24 := by decide
  have hbinding : RecordReg.zero.bindingCountdown = bindingCountdown RecordReg.zero.flags RecordReg.zero.depth := by
    decide
  refine inv_iff.mpr ⟨⟨hn, Nat.zero_le _, Nat.zero_le _, Nat.zero_le _, Nat.zero_le _, fun k _ _ => pbit_pzero k,
    le_rfl, fun h => absurd h (lt_irrefl 0), Nat.zero_le _, hid, rfl, hbinding, hmem⟩, ?_⟩
  show (s.cleared p n).AtPhase p
  rcases hp with rfl | rfl
  · trivial
  · trivial

/-- Settles O43: the reset state is a core with cleared registers, and its host drives nothing. -/
theorem resetMeetsTheInvariant : Obligations.ResetMeetsTheInvariant := by
  have hmem : Memory.wf State.reset.mem := by decide
  exact ⟨inv_cleared (s := State.reset) (.inl rfl) le_rfl hmem, Nat.two_pow_pos _, fun p hp => by cases hp⟩

/-- A step uses up one entry of the ports and leaves the host's duties kept. -/
theorem hostOk_of_step {s t : State} (hok : s.hostOk) (h : step s = .next t) : t.hostOk := by
  obtain ⟨-, hrow, hinputs⟩ := sameInputs_of_step h
  obtain ⟨hwidth, hports⟩ := hok
  refine ⟨by rw [hrow]; exact hwidth, fun p hp => ?_⟩
  rw [hinputs] at hp
  rw [hrow]
  exact hports p (List.mem_of_mem_tail hp)

/-- Settles O44: with `rst` low a step is an honoured `START`, which clears the core with a length that the row has, or
the operation of the phase. -/
theorem everyStepKeepsTheInvariant : Obligations.EveryStepKeepsTheInvariant := by
  intro s t hinv hok h
  refine ⟨?_, hostOk_of_step hok h⟩
  cases stepKind_of_step h with
  | rst hrst => exact absurd hrst (by simp [port_rst_of_quiet fun p hp => (hok.2 p hp).1])
  | start _ hstart ht =>
    subst ht
    exact inv_cleared (.inr rfl) ((hok.2 _ (port_mem_inputs hstart.2)).2 hstart.2) hinv.mem_wf
  | phase _ _ hstep => exact hstep.keeps_inv hinv.popPort

/-! ### What the invariant bounds -/

/-- Settles O45: every position is at most `nbits`, which the row's length bounds, and `count` is bounded by the cursor
and by `nbits` (R104, R107). -/
theorem storedValuesFitInTheirWidth : Obligations.StoredValuesFitInTheirWidth := by
  intro s hinv hok
  have hnbits := lt_of_le_of_lt hinv.nbits_le hok.1
  have hcount := hinv.count_cursor
  have hcursor := hinv.cursor_le
  have hndec := hinv.ndec_le
  have hbound := hinv.count_bound
  exact ⟨hnbits, lt_of_le_of_lt hcursor hnbits, lt_of_le_of_lt hinv.mpos_le hnbits,
    lt_of_le_of_lt hinv.dcur_le hnbits, by omega, by omega, by omega, by omega⟩

/-- Of the phases' operations `SKIP` alone moves the scan cursor, to behind a match that lies ahead (R13, R94). -/
theorem PhaseStep.cursor_mono {s t : State} (h : PhaseStep s t) (hp : s.AtPhase s.phase) :
    s.cursor ≤ t.cursor ∧ t.nbits = s.nbits := by
  cases h with
  | skip hphase =>
    rw [hphase] at hp
    exact ⟨le_trans hp.1.ahead (Nat.le_add_right _ 8), rfl⟩
  | _ => exact ⟨le_rfl, rfl⟩

/-- Settles O46: such a step is the operation of the phase, which keeps the invariant and so the cursor's bound. -/
theorem cursorNeverDecreases : Obligations.CursorNeverDecreases := by
  intro s t hinv h hrst hno
  have hstep : PhaseStep s.popPort t := phaseStep_of_exec ((step_of_not_honoursStart hrst hno).symm.trans h)
  obtain ⟨hcursor, hnbits⟩ := hstep.cursor_mono hinv.popPort.atPhase
  exact ⟨hcursor, (hstep.keeps_inv hinv.popPort).cursor_le, hnbits⟩

end Sys2Proof.Machine
end

section
/-! PROOFS. No step goes wrong on a latched length that the row has (R166), and every invocation ends: a rank that each
busy step lowers bounds the steps that are left (R105, R190). -/

namespace Sys2Proof.Machine

/-! ### Every step answers -/

/-- On a latched length that the row has, the operation of every phase answers a next state: the three that read find
their bits in the row (R166). -/
theorem exec_phase_answers {s : State} (hrow : s.nbits ≤ s.rowLen) (p : Phase) :
    ∃ t, exec (phaseInstr p) s = .next t := by
  cases p with
  | search =>
    rcases search_spec s s.cursor with ⟨q, hs, -⟩ | ⟨hs, -⟩ | ⟨-, q, -, hout, -⟩
    · exact ⟨_, exec_search_of_found hs⟩
    · exact ⟨_, exec_search_of_notFound hs⟩
    · have := match8_eq_none.mp hout
      omega
  | mdec =>
    rcases execMdec_spec s with ⟨u, k, hu, -⟩ | ⟨-, k, -, hin, hout, -⟩
    · exact ⟨_, hu⟩
    · omega
  | postchk => exact ⟨_, exec_postchk_of_postOk (postOk_eq hrow)⟩
  | idle => exact ⟨_, rfl⟩
  | guard => exact ⟨_, rfl⟩
  | skip => exact ⟨_, rfl⟩
  | lenchk => exact ⟨_, rfl⟩
  | crcchk => exact ⟨_, rfl⟩
  | extract => exact ⟨_, rfl⟩
  | emit => exact ⟨_, rfl⟩
  | resume => exact ⟨_, rfl⟩
  | finish => exact ⟨_, rfl⟩
  | done => exact ⟨_, rfl⟩

/-- Settles O42: `rst` and an honoured `START` always answer, and so does the operation of every phase. -/
theorem noStepGoesWrong : Obligations.NoStepGoesWrong := by
  intro s hrow
  cases hrst : s.port.rst with
  | true => exact ⟨_, step_of_rst hrst⟩
  | false =>
    by_cases hstart : s.honoursStart
    · exact ⟨_, step_of_start hstart.1 hrst hstart.2⟩
    · rw [step_of_not_honoursStart hrst hstart]
      exact exec_phase_answers (s := s.popPort) hrow s.phase

/-! ### The rank -/

/-- How many candidates with a body in the buffer can begin at or after `c`, if each is behind the preamble of the one
before (R105). -/
def State.candidatesFrom (s : State) (c : Nat) : Nat := (s.nbits - (c + 128)) / 8

/-- The most steps there can be before `DONE`: ten for a candidate, three for a scan that ends in `FINISH`. -/
def State.rank (s : State) : Nat :=
  match s.phase with
  | .idle => 0
  | .done => 0
  | .finish => 1
  | .search => 10 * s.candidatesFrom s.cursor + 3
  | .guard => 10 * s.candidatesFrom s.mpos + 2
  | .skip => 10 * s.candidatesFrom (s.mpos + 8) + 11
  | .mdec => 10 * s.candidatesFrom s.cursor + 10
  | .lenchk => 10 * s.candidatesFrom s.cursor + 9
  | .postchk => 10 * s.candidatesFrom s.cursor + 8
  | .crcchk => 10 * s.candidatesFrom s.cursor + 7
  | .extract => 10 * s.candidatesFrom s.cursor + 6
  | .emit => 10 * s.candidatesFrom s.cursor + 5
  | .resume => 10 * s.candidatesFrom s.cursor + 4

theorem candidatesFrom_anti (s : State) {c d : Nat} (h : c ≤ d) : s.candidatesFrom d ≤ s.candidatesFrom c :=
  Nat.div_le_div_right (by omega)

/-- A candidate whose body lies in the buffer is one of those counted. -/
theorem candidatesFrom_behind {s : State} {c : Nat} (h : c + 136 ≤ s.nbits) :
    s.candidatesFrom c = s.candidatesFrom (c + 8) + 1 := by
  unfold State.candidatesFrom
  omega

/-- The operation of a working phase lowers the rank. -/
theorem PhaseStep.rank_lt {s t : State} (h : PhaseStep s t) (hbusy : s.busy = true) : t.rank < s.rank := by
  cases h with
  | rest hp => simp [State.busy, hp] at hbusy
  | @found p hp hle =>
    have hanti := candidatesFrom_anti s hle
    simp only [State.rank, hp, takeMatch_phase, takeMatch_mpos]
    show 10 * s.candidatesFrom p + 2 < _
    omega
  | bodyFits hp hfit =>
    have hbehind := candidatesFrom_behind hfit
    simp only [State.rank, hp, goto_phase, goto_mpos]
    show 10 * s.candidatesFrom (s.mpos + 8) + 11 < _
    omega
  | notFound hp => simp only [State.rank, hp, takeNoMatch_phase]; omega
  | bodyCut hp => simp only [State.rank, hp, goto_phase]; omega
  | finish hp => simp only [State.rank, hp, goto_phase]; exact Nat.zero_lt_one
  | _ hp =>
    simp only [State.rank, hp, goto_phase, latchRecord_phase]
    exact Nat.add_lt_add_left (by decide) _

/-! ### From a busy state to `DONE` -/

/-- No operation of a phase changes the latched length (R23). -/
theorem PhaseStep.nbits_eq {s t : State} (h : PhaseStep s t) : t.nbits = s.nbits := by
  cases h with
  | _ => rfl

/-- A host that keeps its duties keeps them through a busy step. -/
theorem Running.of_busy_step {s t : State} (hr : Running s) (hbusy : s.busy = true) (h : step s = .next t) :
    Running t := by
  have hnbits := (phaseStep_of_busy (port_rst_of_quiet hr.quiet) hbusy h).nbits_eq
  obtain ⟨-, hrow, hinputs⟩ := sameInputs_of_step h
  refine ⟨?_, fun p hp => hr.quiet p (List.mem_of_mem_tail ?_)⟩
  · rw [hnbits, hrow]
    exact hr.in_row
  · rwa [hinputs] at hp

/-- No edge leads from a working phase to `IDLE` (R91). -/
theorem ne_idle_of_mayGo {p q : Phase} (h : Phase.mayGo p q) (hp : p ≠ .idle) : q ≠ .idle := by
  rintro rfl
  cases p with
  | idle => exact hp rfl
  | _ => simp [Phase.mayGo] at h

theorem busy_of_ne {s : State} (hidle : s.phase ≠ .idle) (hdone : s.phase ≠ .done) : s.busy = true := by
  rw [busy_eq_true]
  generalize s.phase = p at hidle hdone
  cases p with
  | idle => exact absurd rfl hidle
  | done => exact absurd rfl hdone
  | _ => rfl

/-- A core that is not idle, its host keeping its duties, comes to `DONE` within its rank, and is busy until then. -/
theorem reaches_done {s : State} (hr : Running s) (hidle : s.phase ≠ .idle) :
    ∃ k t, k ≤ s.rank ∧ runs k s = .next t ∧ t.phase = .done ∧ ∀ j u, j < k → runs j s = .next u → u.busy = true := by
  induction hn : s.rank using Nat.strong_induction_on generalizing s with
  | _ n ih =>
    subst hn
    by_cases hdone : s.phase = .done
    · exact ⟨0, s, Nat.zero_le _, rfl, hdone, fun j u hj _ => absurd hj (Nat.not_lt_zero j)⟩
    · have hbusy := busy_of_ne hidle hdone
      obtain ⟨u, hstep⟩ := noStepGoesWrong s hr.in_row
      have hphase := phaseStep_of_busy (port_rst_of_quiet hr.quiet) hbusy hstep
      have hlt : u.rank < s.rank := hphase.rank_lt hbusy
      obtain ⟨k, t, hk, hrun, ht, hall⟩ := ih u.rank hlt (hr.of_busy_step hbusy hstep)
        (ne_idle_of_mayGo hphase.mayGo hidle) rfl
      refine ⟨k + 1, t, by omega, (runs_succ_of_step hstep k).trans hrun, ht, fun j v hj hv => ?_⟩
      cases j with
      | zero => exact next_inj.mp hv ▸ hbusy
      | succ j => exact hall j v (by omega) (runs_succ_of_step hstep j ▸ hv)

/-- Settles O47: `START` takes one step, and the rank of a scan at cursor 0 is three and ten for each candidate that
can begin in the buffer. -/
theorem everyInvocationReachesDone : Obligations.EveryInvocationReachesDone := by
  intro s hbusy hstart hok
  have hfirst := step_of_start hbusy (port_rst_of_quiet fun p hp => (hok.2 p hp).1) hstart
  obtain ⟨k, t, hk, hrun, hdone, hall⟩ := reaches_done (running_startInvocation hstart hok) (by simp)
  have hrank : (s.popPort.startInvocation s.port.nbits).rank = 10 * ((s.port.nbits - (0 + 128)) / 8) + 3 := rfl
  refine ⟨k + 1, t, Nat.succ_pos k, by omega, (runs_succ_of_step hfirst k).trans hrun, hdone, fun j u hj hjk hu => ?_⟩
  obtain ⟨i, rfl⟩ := Nat.exists_eq_add_of_lt hj
  rw [Nat.zero_add] at hjk hu
  exact hall i u (by omega) (runs_succ_of_step hfirst i ▸ hu)

end Sys2Proof.Machine
end

section
/-! PROOFS. Occurrences of the preamble: none lies inside a correctly coded body (R85 (f)), the pattern `PREAMBLE` is
what `SEARCH` does at the cursor (log 1), and a read outside the row faults in each operation that reads (log 4). -/

namespace Sys2Proof.Machine

/-! ### Inside a valid body -/

/-- A pair whose two bits are read equal is no valid symbol. -/
theorem not_validPair_of_eq {s : State} {d k : Nat} {b : Bool} (hfirst : s.readBit (d + 2 * k) = some b)
    (hsecond : s.readBit (d + 2 * k + 1) = some b) : ¬ s.validPair d k := by
  rintro ⟨x, y, hx, hy, hne⟩
  have hxb : x = b := Option.some.inj (hx.symm.trans hfirst)
  have hyb : y = b := Option.some.inj (hy.symm.trans hsecond)
  exact hne (hxb.trans hyb.symm)

/-- Settles O9: an occurrence at an even distance from `d` shows the pair `00` in its bits 6 and 7, one at an odd
distance the pair `11` in its bits 3 and 4. -/
theorem noPreambleInsideAValidBody : Obligations.NoPreambleInsideAValidBody := by
  rintro s d hvalid p hlow hhigh ⟨-, -, -, -, h3, h4, -, h6, h7⟩
  obtain ⟨k, hk | hk⟩ : ∃ k, p = d + 2 * k ∨ p = d + 2 * k + 1 := ⟨(p - d) / 2, by omega⟩
  · rw [show p + 6 = d + 2 * (k + 3) by omega] at h6
    rw [show p + 7 = d + 2 * (k + 3) + 1 by omega] at h7
    exact not_validPair_of_eq h6 h7 (hvalid _ (by omega))
  · rw [show p + 3 = d + 2 * (k + 2) by omega] at h3
    rw [show p + 4 = d + 2 * (k + 2) + 1 by omega] at h4
    exact not_validPair_of_eq h3 h4 (hvalid _ (by omega))

/-! ### The pattern at the cursor -/

/-- The pattern is taken where its window fits, and ends the scan where it does not (log 1). -/
theorem exec_preamble (s : State) :
    exec .preamble s = .next (if s.cursor + 8 ≤ s.nbits then s.takeMatch s.cursor else s.takeNoMatch) := rfl

/-- Settles O8: an occurrence at the cursor is what the search finds there, and with no window left it finds
nothing. -/
theorem preambleAtTheCursorIsSearch : Obligations.PreambleAtTheCursorIsSearch := by
  refine fun s => ⟨fun hfit => ?_, fun hshort => ?_, fun h => ?_⟩
  · rw [exec_preamble, if_pos hfit]
    rfl
  · rw [exec_preamble, if_neg (not_le.mpr hshort)]
    rfl
  · rcases h with hocc | hshort
    · have hfound := search_eq_found le_rfl (match8_eq_true_iff_occursAt.mpr hocc) fun r hr hlt => by omega
      rw [exec_search_of_found hfound, exec_preamble, if_pos hocc.1]
    · have hnone : s.search s.cursor = .notFound := searchFrom_eq_notFound fun r hr => match8_of_gt (by omega)
      rw [exec_search_of_notFound hnone, exec_preamble, if_neg (not_le.mpr hshort)]

/-! ### Reads outside the row -/

/-- A scan that meets no occurrence and has a window that ends outside the row comes to a bit the row does not have. -/
theorem search_eq_outside {s : State} {c p : Nat} (hnone : ∀ q, c ≤ q → ¬ s.occursAt q) (hp : c ≤ p)
    (hout : s.match8 p = none) : s.search c = .outside := by
  rcases search_spec s c with ⟨q, -, hq, hm, -⟩ | ⟨-, hall⟩ | ⟨hs, -⟩
  · exact absurd (match8_eq_true_iff_occursAt.mp hm) (hnone q hq)
  · exact absurd (hout.symm.trans (hall p hp)) (by simp)
  · exact hs

/-- `MDEC` faults at pair `n` when the pairs before it are valid and pair `n` is not in the row. -/
theorem execMdec_eq_fault {s : State} {n : Nat} (hn : n < 64) (hvalid : ∀ k, k < n → s.validPair s.dcur k)
    (hfit : s.dcur + 128 ≤ s.nbits) (hout : s.rowLen < s.dcur + 2 * n + 2) :
    execMdec s = .fault .bitOutsideRow := by
  rcases execMdec_spec s with ⟨t, k, -, hle, -, htaken, hstop, -⟩ | ⟨hfault, -⟩
  · exfalso
    have hkn : k ≤ n := not_lt.mp fun hlt => absurd (htaken n hlt).2.1 (not_le.mpr hout)
    rcases hstop with ⟨rfl, -⟩ | ⟨-, -, hrow, -, heq⟩ | ⟨hk, hshort, -⟩
    · omega
    · rcases Nat.lt_or_eq_of_le hkn with hlt | rfl
      · exact (validPair_iff.mp (hvalid k hlt)).2 heq
      · exact absurd hrow (not_le.mpr hout)
    · exact absurd hshort (by simp only; omega)
  · exact hfault

/-- Settles O6: the window that ends at the last bit below `nbits` has no answer; the decoder comes to the missing
pair; the postamble test reads its two bits. -/
theorem readsOutsideTheRowFault : Obligations.ReadsOutsideTheRowFault := by
  refine fun s => ⟨fun hnone hfit hout => ?_, fun n hn hvalid hfit hout => ?_, fun hfit hout => ?_⟩
  · have hlast : s.match8 (s.nbits - 8) = none := match8_eq_none.mpr ⟨by omega, by omega⟩
    have hsearch := search_eq_outside hnone (by omega) hlast
    rw [show exec .search s = execSearch s from rfl, execSearch, hsearch]
  · exact execMdec_eq_fault hn hvalid hfit hout
  · rcases postOk_spec s with ⟨hshort, -⟩ | ⟨-, hrow, -⟩ | ⟨-, -, hok⟩
    · omega
    · omega
    · rw [show exec .postchk s = execPostchk s from rfl, execPostchk, hok]
      rfl

end Sys2Proof.Machine
end

section
/-! PROOFS. Frames in the row (R65, R143): the three parts of a frame's bits, a frame decoded and handed over in seven
steps, and the converse, for which a table says what each phase behind `SKIP` has established about the candidate. -/

namespace Sys2Proof.Machine

/-! ### The bits of a frame -/

/-- Pairs laid down one after the other stand at the even addresses and behind them. -/
theorem getElem?_flatMap_pair (f g : Nat → Bool) {n k : Nat} (hk : k < n) :
    ((List.range n).flatMap fun i => [f i, g i])[2 * k]? = some (f k)
    ∧ ((List.range n).flatMap fun i => [f i, g i])[2 * k + 1]? = some (g k) := by
  have hlength (m : Nat) : ((List.range m).flatMap fun i => [f i, g i]).length = 2 * m := by
    simp [List.length_flatMap, Nat.mul_comm]
  induction n with
  | zero => omega
  | succ n ih =>
    rw [List.range_succ, List.flatMap_append]
    rcases Nat.lt_succ_iff_lt_or_eq.mp hk with hlt | rfl
    · rw [List.getElem?_append_left (by rw [hlength]; omega), List.getElem?_append_left (by rw [hlength]; omega)]
      exact ih hlt
    · rw [List.getElem?_append_right (by rw [hlength]), List.getElem?_append_right (by rw [hlength]; omega), hlength,
        Nat.sub_self, Nat.add_sub_cancel_left]
      exact ⟨rfl, rfl⟩

/-- The line code of a payload, 128 raw bits (R65, R111). -/
def bodyBits (P : Payload) : List Bool := (List.range 64).flatMap fun k => [!pbit P k, pbit P k]

theorem length_bodyBits (P : Payload) : (bodyBits P).length = 128 := by simp [bodyBits, List.length_flatMap]

/-- A frame is the preamble, the body and the postamble (R65). -/
theorem frameBits_eq (P : Payload) : frameBits .pair01 P
    = [false, true, false, true, true, false, false, false] ++ (bodyBits P ++ [pbit P 63, pbit P 63]) :=
  List.append_assoc ..

theorem length_frameBits (P : Payload) : (frameBits .pair01 P).length = 138 := by
  simp [frameBits_eq, length_bodyBits]

theorem frameBits_preamble (P : Payload) {i : Nat} (hi : i < 8) : (frameBits .pair01 P)[i]?
    = [false, true, false, true, true, false, false, false][i]? := by
  rw [frameBits_eq, List.getElem?_append_left (by simpa using hi)]

theorem frameBits_body (P : Payload) {i : Nat} (hi : i < 128) : (frameBits .pair01 P)[8 + i]? = (bodyBits P)[i]? := by
  rw [frameBits_eq, List.getElem?_append_right (by simp), List.getElem?_append_left (by rw [length_bodyBits]; simpa)]
  simp

theorem frameBits_pair (P : Payload) {k : Nat} (hk : k < 64) :
    (frameBits .pair01 P)[8 + 2 * k]? = some (!pbit P k)
    ∧ (frameBits .pair01 P)[8 + (2 * k + 1)]? = some (pbit P k) := by
  rw [frameBits_body P (by omega), frameBits_body P (by omega)]
  exact getElem?_flatMap_pair (fun i => !pbit P i) (pbit P) hk

theorem frameBits_postamble (P : Payload) :
    (frameBits .pair01 P)[136]? = some (pbit P 63) ∧ (frameBits .pair01 P)[137]? = some (pbit P 63) := by
  have hbody := length_bodyBits P
  rw [frameBits_eq, List.getElem?_append_right (by simp), List.getElem?_append_right (by simp [hbody]),
    List.getElem?_append_right (by simp), List.getElem?_append_right (by simp [hbody])]
  simp [hbody]

/-- Settles O54: the second bit of the last pair is the last decoded bit, and so are the two bits of the postamble. -/
theorem frameEndsInThreeEqualBits : Obligations.FrameEndsInThreeEqualBits :=
  fun P => ⟨length_frameBits P, (frameBits_pair P (k := 63) (by decide)).2, frameBits_postamble P⟩

/-! ### A frame in the row -/

/-- The row holds the line code of the payload from `d` on. -/
def State.holdsBody (s : State) (d : Nat) (P : Payload) : Prop :=
  ∀ k, k < 64 → s.readBit (d + 2 * k) = some (!pbit P k) ∧ s.readBit (d + 2 * k + 1) = some (pbit P k)

/-- The row holds a payload's line code where its pairs are valid and have the payload's bits as their values. -/
theorem holdsBody_iff {s : State} {d : Nat} {P : Payload} :
    s.holdsBody d P ↔ ∀ k, k < 64 → s.validPair d k ∧ pbit P k = s.pairValue d k := by
  refine forall₂_congr fun k _ => ?_
  have hvalue : s.pairValue d k = Memory.bit s.mem (d + 2 * k + 1) := rfl
  rw [validPair_iff, hvalue, readBit_eq_some, readBit_eq_some]
  constructor
  · rintro ⟨⟨-, hfirst⟩, hrow, hsecond⟩
    exact ⟨⟨hrow, by rw [hfirst, hsecond]; simp⟩, hsecond.symm⟩
  · rintro ⟨⟨hrow, hne⟩, hbit⟩
    exact ⟨⟨by omega, by rw [hbit]; exact Bool.eq_not_of_ne hne⟩, hrow, hbit.symm⟩

/-- The row holds a frame below `nbits` where it has an occurrence of the preamble, the payload's line code behind it,
and the last decoded bit twice behind that (R65). -/
theorem holdsFrame_iff {s : State} {p : Nat} {P : Payload} (hfit : p + 8 ≤ s.nbits) :
    s.holdsFrame p P ↔ s.occursAt p ∧ s.holdsBody (p + 8) P
      ∧ s.readBit (p + 136) = some (pbit P 63) ∧ s.readBit (p + 137) = some (pbit P 63) := by
  have hmc : Config.mcOne = .pair01 := rfl
  obtain ⟨hpost, hpost'⟩ := frameBits_postamble P
  unfold State.holdsFrame
  rw [hmc]
  constructor
  · intro h
    have preamble_at (i : Nat) (hi : i < 8) := (h i (by omega)).trans (frameBits_preamble P hi)
    refine ⟨⟨hfit, preamble_at 0 (by decide), preamble_at 1 (by decide), preamble_at 2 (by decide),
      preamble_at 3 (by decide), preamble_at 4 (by decide), preamble_at 5 (by decide), preamble_at 6 (by decide),
      preamble_at 7 (by decide)⟩, fun k hk => ?_, (h 136 (by decide)).trans hpost, (h 137 (by decide)).trans hpost'⟩
    obtain ⟨hfirst, hsecond⟩ := frameBits_pair P hk
    rw [Nat.add_assoc p 8, Nat.add_assoc p, Nat.add_assoc 8]
    exact ⟨(h _ (by omega)).trans hfirst, (h _ (by omega)).trans hsecond⟩
  · rintro ⟨⟨-, h0, h1, h2, h3, h4, h5, h6, h7⟩, hbody, h136, h137⟩ i hi
    rcases Nat.lt_or_ge i 8 with hlow | hlow
    · rw [frameBits_preamble P hlow]
      interval_cases i
      exacts [h0, h1, h2, h3, h4, h5, h6, h7]
    · rcases Nat.lt_or_ge i 136 with hmid | hmid
      · obtain ⟨k, rfl | rfl⟩ : ∃ k, i = 8 + 2 * k ∨ i = 8 + (2 * k + 1) := ⟨(i - 8) / 2, by omega⟩
        · rw [(frameBits_pair P (by omega)).1, ← Nat.add_assoc]
          exact (hbody k (by omega)).1
        · rw [(frameBits_pair P (by omega)).2, ← Nat.add_assoc, ← Nat.add_assoc]
          exact (hbody k (by omega)).2
      · obtain rfl | rfl : i = 136 ∨ i = 137 := by omega
        · exact h136.trans hpost.symm
        · exact h137.trans hpost'.symm

/-! ### A frame is accepted -/

/-- `rst` stays low (R192). -/
abbrev State.quiet (s : State) : Prop := ∀ p ∈ s.inputs, p.rst = false

theorem State.quiet.popPort {s : State} (h : s.quiet) : s.popPort.quiet := fun p hp => h p (List.mem_of_mem_tail hp)

/-- `MDEC` on a payload's line code decodes that payload (R110, R143). -/
theorem exec_mdec_of_holdsBody {s : State} {P : Payload} (hfit : s.dcur + 128 ≤ s.nbits)
    (hbody : s.holdsBody s.dcur P) :
    exec .mdec s = .next { s with P := P, ndec := 64, dcur := s.dcur + 128, phase := .lenchk } := by
  have hpairs := holdsBody_iff.mp hbody
  obtain ⟨Q, hexec, hbits⟩ := mdecDecodesTheBody.2.2 s 64 le_rfl hfit (fun k hk => (hpairs k hk).1) (by omega)
  have hQ : Q = P := payload_ext fun k hk => by
    have hbit : pbit Q k = (decide (k < 64) && s.pairValue s.dcur k) := hbits k hk
    rw [hbit, decide_eq_true hk, Bool.true_and, (hpairs k hk).2]
  rw [hexec, hQ, if_pos rfl]

/-- A run that begins with the operation of a working phase, `rst` low. -/
theorem runs_succ_of_phase {s t : State} {p : Phase} (hq : s.quiet) (hp : s.phase = p)
    (hw : Phase.isRest p = false) (he : exec (phaseInstr p) s.popPort = .next t) (k : Nat) :
    runs (k + 1) s = runs k t :=
  runs_succ_of_step ((step_of_working (port_rst_of_quiet hq) hp hw).trans he) k

/-- `SKIP`, `MDEC`: a frame's body is decoded (R94, R110). -/
theorem runs_decode_of_holdsFrame {s : State} {P : Payload} (hq : s.quiet) (hp : s.phase = .skip)
    (hfit : s.mpos + 138 ≤ s.nbits) (hframe : s.holdsFrame s.mpos P) :
    runs 2 s = .next { s.popPort.popPort with
      cursor := s.mpos + 8, P := P, ndec := 64, dcur := s.mpos + 8 + 128, phase := .lenchk } := by
  obtain ⟨-, hbody, -⟩ := (holdsFrame_iff (by omega)).mp hframe
  have hmdec := exec_mdec_of_holdsBody (s := (s.popPort.freshCandidate.goto .mdec).popPort) (P := P)
    (show s.mpos + 8 + 128 ≤ s.nbits by omega) hbody
  exact (runs_succ_of_phase hq hp rfl rfl 1).trans
    (runs_succ_of_phase (s := s.popPort.freshCandidate.goto .mdec) (p := .mdec) hq.popPort rfl rfl hmdec 0)

/-- `LENCHK`, `POSTCHK`, `CRCCHK`: a decoded payload with its postamble and a right checksum passes (R115, R120,
R126). -/
theorem runs_validate {s : State} (hq : s.quiet) (hp : s.phase = .lenchk) (hndec : s.ndec = 64)
    (hfit : s.dcur + 2 ≤ s.nbits) (hfirst : s.readBit s.dcur = some s.lastBit)
    (hsecond : s.readBit (s.dcur + 1) = some s.lastBit) (hcrc : crcOk s.P = true) :
    runs 3 s = .next { s.popPort.popPort.popPort with crc := payloadCrc s.P, phase := .extract } := by
  have hlength : exec .lenchk s.popPort = .next (s.popPort.goto .postchk) := by
    rw [exec_lenchk, popPort_ndec, if_pos hndec]
  have hpost : exec .postchk (s.popPort.goto .postchk).popPort = .next (s.popPort.popPort.goto .crcchk) := by
    rw [exec_postchk_of_postOk (postOk_of_reads (s := (s.popPort.goto .postchk).popPort) hfit hfirst hsecond),
      afterPost_decide, if_pos ⟨rfl, rfl⟩]
    rfl
  have hcheck : exec .crcchk (s.popPort.popPort.goto .crcchk).popPort
      = .next { s.popPort.popPort.popPort with crc := payloadCrc s.P, phase := .extract } :=
    congrArg _ (if_pos hcrc)
  calc runs 3 s = runs 2 (s.popPort.goto .postchk) := runs_succ_of_phase hq hp rfl hlength 2
    _ = runs 1 (s.popPort.popPort.goto .crcchk) :=
      runs_succ_of_phase (s := s.popPort.goto .postchk) (p := .postchk) hq.popPort rfl rfl hpost 1
    _ = .next _ :=
      runs_succ_of_phase (s := s.popPort.popPort.goto .crcchk) (p := .crcchk) hq.popPort.popPort rfl rfl hcheck 0

/-- `EXTRACT`, `EMIT`: the payload's record is handed over (R135, R150). -/
theorem runs_handOver {s : State} (hq : s.quiet) (hp : s.phase = .extract) :
    runs 2 s = .next ((s.popPort.popPort.latchRecord (extractRecord s.P)).emitRecord.goto .resume) := by
  calc runs 2 s = runs 1 (s.popPort.latchRecord (extractRecord s.P)) := runs_succ_of_phase hq hp rfl rfl 1
    _ = .next _ := runs_succ_of_phase (s := s.popPort.latchRecord _) (p := .emit) hq.popPort rfl rfl rfl 0

/-- A run carried on from where it ends. -/
theorem runs_add {s t : State} {j : Nat} (h : runs j s = .next t) (k : Nat) : runs (j + k) s = runs k t := by
  induction j generalizing s with
  | zero => rw [Nat.zero_add, next_inj.mp h]
  | succ j ih =>
    obtain ⟨u, hstep, hrest⟩ := runs_succ_next h
    rw [Nat.succ_add, runs_succ_of_step hstep, ih hrest]

/-- Settles O52: two steps decode the payload, three pass it, two hand its record over. -/
theorem aFrameIsAccepted : Obligations.AFrameIsAccepted := by
  intro s P hp hfit hframe hcrc hq
  obtain ⟨-, -, hfirst, hsecond⟩ := (holdsFrame_iff (by omega)).mp hframe
  have hq2 : s.popPort.popPort.quiet := (State.quiet.popPort hq).popPort
  have hdecode := runs_decode_of_holdsFrame hq hp hfit hframe
  have hvalidate := runs_validate (s := { s.popPort.popPort with
    cursor := s.mpos + 8, P := P, ndec := 64, dcur := s.mpos + 8 + 128, phase := .lenchk })
    hq2 rfl rfl (show s.mpos + 8 + 128 + 2 ≤ s.nbits by omega) hfirst hsecond hcrc
  exact ⟨_, (runs_add hdecode 5).trans ((runs_add hvalidate 2).trans (runs_handOver hq2.popPort.popPort.popPort rfl)),
    rfl, rfl, rfl, rfl, rfl⟩

end Sys2Proof.Machine
end

section
/-! PROOFS. What each phase behind `SKIP` has established about the candidate in hand: a record is handed over only for
a whole frame with a right checksum (R115, R120, R126), and only by the seven steps from `SKIP`. -/

namespace Sys2Proof.Machine

/-! ### The candidate, test by test -/

/-- What is known of the candidate in hand in a phase, whatever the registers held before the search that found it. -/
def State.Vetted (s : State) : Phase → Prop
  | .guard => s.occursAt s.mpos
  | .skip => s.occursAt s.mpos
  | .mdec => s.occursAt s.mpos ∧ s.cursor = s.mpos + 8 ∧ s.dcur = s.mpos + 8
  | .lenchk => s.occursAt s.mpos ∧ s.cursor = s.mpos + 8
      ∧ (s.ndec = 64 → s.dcur = s.mpos + 136 ∧ s.holdsBody (s.mpos + 8) s.P)
  | .postchk => s.occursAt s.mpos ∧ s.cursor = s.mpos + 8 ∧ s.dcur = s.mpos + 136 ∧ s.holdsBody (s.mpos + 8) s.P
  | .crcchk => s.cursor = s.mpos + 8 ∧ s.mpos + 138 ≤ s.nbits ∧ s.holdsFrame s.mpos s.P
  | .extract => s.cursor = s.mpos + 8 ∧ s.mpos + 138 ≤ s.nbits ∧ s.holdsFrame s.mpos s.P ∧ crcOk s.P = true
  | .emit => s.cursor = s.mpos + 8 ∧ s.mpos + 138 ≤ s.nbits ∧ s.holdsFrame s.mpos s.P ∧ crcOk s.P = true
      ∧ s.record = extractRecord s.P
  | .resume => s.cursor = s.mpos + 8
  | .idle => True
  | .search => True
  | .finish => True
  | .done => True

/-- Sampling the ports touches nothing of the candidate. -/
theorem vetted_popPort {s : State} {p : Phase} (h : s.Vetted p) : s.popPort.Vetted p := by
  cases p with
  | _ => exact h

/-- 64 pairs taken from a cleared scratch are the line code of the payload they leave (R110, R112). -/
theorem LoopEnd.holdsBody {s t : State} (h : LoopEnd { s with P := pzero, ndec := 0 } t 64 64) :
    s.holdsBody s.dcur t.P := by
  refine holdsBody_iff.mpr fun j hj => ?_
  obtain ⟨-, hrow, hne⟩ := h.valid j hj
  have hbit := h.bits le_rfl j hj
  refine ⟨validPair_iff.mpr ⟨hrow, hne⟩, ?_⟩
  simpa [State.pairValue, hj] using hbit

/-- 64 pairs taken leave the decoder's cursor behind the body (R114). -/
theorem LoopEnd.dcur_of_full {s t : State} {m : Nat} (h : LoopEnd s t m m) : t.dcur = s.dcur + 2 * m := by
  rcases h.stop with ⟨-, hd⟩ | ⟨hlt, -⟩ | ⟨hlt, -⟩
  · exact hd
  · exact absurd hlt (lt_irrefl m)
  · exact absurd hlt (lt_irrefl m)

/-- Each test adds what it has established. -/
theorem PhaseStep.keeps_vetted {s t : State} (h : PhaseStep s t) (hv : s.Vetted s.phase) : t.Vetted t.phase := by
  cases h with
  | rest => exact hv
  | found _ _ hocc => exact hocc
  | bodyFits hp => rw [hp] at hv; exact hv
  | skip hp => rw [hp] at hv; exact ⟨hv, rfl, rfl⟩
  | decoded hp hend =>
    rw [hp] at hv
    obtain ⟨hocc, hcursor, hdcur⟩ := hv
    refine ⟨hocc, hcursor, fun hfull => ?_⟩
    obtain rfl : _ = 64 := hfull
    have hbody := hend.holdsBody
    rw [hdcur] at hbody
    exact ⟨hend.dcur_of_full.trans (by simp only [hdcur]), hbody⟩
  | lengthOk hp hndec =>
    rw [hp] at hv
    obtain ⟨hocc, hcursor, hfull⟩ := hv
    exact ⟨hocc, hcursor, hfull hndec⟩
  | lengthBad hp => rw [hp] at hv; exact hv.2.1
  | postOk hp hfit hfirst hsecond =>
    rw [hp] at hv
    obtain ⟨hocc, hcursor, hdcur, hbody⟩ := hv
    rw [hdcur] at hfit hfirst hsecond
    exact ⟨hcursor, hfit, (holdsFrame_iff (s := s) (P := s.P) hocc.1).mpr ⟨hocc, hbody, hfirst, hsecond⟩⟩
  | postBad hp => rw [hp] at hv; exact hv.2.1
  | crcOk hp hok =>
    rw [hp] at hv
    obtain ⟨hcursor, hfit, hframe⟩ := hv
    exact ⟨hcursor, hfit, hframe, hok⟩
  | crcBad hp => rw [hp] at hv; exact hv.1
  | extract hp =>
    rw [hp] at hv
    obtain ⟨hcursor, hfit, hframe, hok⟩ := hv
    exact ⟨hcursor, hfit, hframe, hok, rfl⟩
  | emit hp => rw [hp] at hv; exact hv.1
  | _ => trivial

/-- Every step keeps what is known of the candidate; `rst` and `START` drop it. -/
theorem vetted_of_step {s t : State} (h : step s = .next t) (hv : s.Vetted s.phase) : t.Vetted t.phase := by
  cases stepKind_of_step h with
  | rst _ ht => subst ht; trivial
  | start _ _ ht => subst ht; trivial
  | phase _ _ hstep => exact hstep.keeps_vetted (vetted_popPort hv)

/-! ### How far it is to the end of `EMIT` -/

/-- The fewest steps in which `EMIT` can have been run from a phase on, `RESUME` being one step from `SEARCH` and a
rest phase too. -/
def Phase.toEmit : Phase → Nat
  | .emit => 1
  | .extract => 2
  | .crcchk => 3
  | .postchk => 4
  | .lenchk => 5
  | .mdec => 6
  | .skip => 7
  | .guard => 8
  | .search => 9
  | .resume => 10
  | .idle => 10
  | .done => 10
  | .finish => 11

theorem toEmit_le (p : Phase) : Phase.toEmit p ≤ 11 := by cases p <;> decide

theorem toEmit_of_isRest {p : Phase} (h : Phase.isRest p = true) : Phase.toEmit p = 10 := by
  cases p with
  | idle => rfl
  | done => rfl
  | _ => cases h

/-- An edge of the phase graph comes at most one step closer to the end of `EMIT`. -/
theorem toEmit_le_of_mayGo {p q : Phase} (h : Phase.mayGo p q) : Phase.toEmit p ≤ Phase.toEmit q + 1 := by
  cases p with
  | search => rcases h with rfl | rfl <;> decide
  | guard => rcases h with rfl | rfl <;> decide
  | lenchk => rcases h with rfl | rfl <;> decide
  | postchk => rcases h with rfl | rfl <;> decide
  | crcchk => rcases h with rfl | rfl <;> decide
  | _ => obtain rfl : q = _ := h; decide

/-- A step comes at most one step closer to the end of `EMIT`. -/
theorem toEmit_le_of_step {s t : State} (h : step s = .next t) :
    Phase.toEmit s.phase ≤ Phase.toEmit t.phase + 1 := by
  cases stepKind_of_step h with
  | rst _ ht => subst ht; exact toEmit_le s.phase
  | start _ hstart ht =>
    subst ht
    exact (toEmit_of_isRest (by simpa [State.busy] using hstart.1)).le
  | phase _ _ hstep => exact toEmit_le_of_mayGo hstep.mayGo

/-- A step of another phase than `EMIT` leaves the sink alone (R151). -/
theorem sink_eq_of_step {s t : State} (h : step s = .next t) (hp : s.phase ≠ .emit) : t.sink = s.sink := by
  rcases recordsAndCountMoveTogether s t h with ⟨hvalid, -⟩ | ⟨-, hsink, -⟩
  · exact absurd (recValid_eq_true_iff.mp hvalid).1 hp
  · exact hsink

/-- A run too short to come to the end of `EMIT` hands over nothing. -/
theorem sink_eq_of_runs {s t : State} {k : Nat} (hrun : runs k s = .next t) (hk : k < Phase.toEmit s.phase) :
    t.sink = s.sink := by
  induction k generalizing s with
  | zero => rw [next_inj.mp hrun]
  | succ k ih =>
    obtain ⟨u, hstep, hrest⟩ := runs_succ_next hrun
    have hnear := toEmit_le_of_step hstep
    have hp : s.phase ≠ .emit := fun h => by rw [h] at hk; exact absurd hk (by simp [Phase.toEmit])
    rw [ih hrest (by omega), sink_eq_of_step hstep hp]

/-- Behind `SEARCH` and up to `EMIT`, a step that comes closer to the end of `EMIT` is on with the candidate in hand. -/
theorem mpos_eq_of_closer {s t : State} (h : step s = .next t) (hp : Phase.toEmit s.phase ≤ 7)
    (hcloser : Phase.toEmit t.phase + 1 = Phase.toEmit s.phase) : t.mpos = s.mpos := by
  cases stepKind_of_step h with
  | rst _ ht =>
    subst ht
    have hidle : Phase.toEmit s.popPort.hardReset.phase = 10 := rfl
    omega
  | start _ _ ht =>
    subst ht
    have hsearch : Phase.toEmit (s.popPort.startInvocation s.port.nbits).phase = 9 := rfl
    omega
  | phase _ _ hstep =>
    cases hstep with
    | found hsearch =>
      rw [show s.phase = .search from hsearch] at hp
      exact absurd hp (by decide)
    | _ => rfl

/-- If a run of exactly as many steps as `EMIT` is away changes the sink, the candidate in hand at its beginning is a
whole frame with a right checksum, and it is its record that is handed over. -/
theorem frame_of_sink_ne {s t : State} {k : Nat} (hfar : Phase.toEmit s.phase = k + 1) (hk : k < 7)
    (hv : s.Vetted s.phase) (hrun : runs (k + 1) s = .next t) (hne : t.sink ≠ s.sink) :
    ∃ P : Payload, s.holdsFrame s.mpos P ∧ crcOk P = true ∧ t.sink = s.sink ++ [(extractRecord P).toSink] := by
  induction k generalizing s with
  | zero =>
    obtain ⟨u, hstep, hrest⟩ := runs_succ_next hrun
    obtain rfl := next_inj.mp hrest
    rcases recordsAndCountMoveTogether s u hstep with ⟨hvalid, hsink, -⟩ | ⟨-, hsink, -⟩
    · rw [(recValid_eq_true_iff.mp hvalid).1] at hv
      obtain ⟨-, -, hframe, hok, hrecord⟩ := hv
      exact ⟨s.P, hframe, hok, hrecord ▸ hsink⟩
    · exact absurd hsink hne
  | succ k ih =>
    obtain ⟨u, hstep, hrest⟩ := runs_succ_next hrun
    have hnear := toEmit_le_of_step hstep
    have hsink : u.sink = s.sink := sink_eq_of_step hstep fun h => by
      rw [h] at hfar
      exact absurd hfar (by simp [Phase.toEmit])
    have hon : Phase.toEmit u.phase = k + 1 := by
      have hlate : ¬ k + 1 < Phase.toEmit u.phase := fun h => hne ((sink_eq_of_runs hrest h).trans hsink)
      omega
    obtain ⟨P, hframe, hok, hgrown⟩ := ih hon (by omega) (vetted_of_step hstep hv) hrest (by rwa [hsink])
    obtain ⟨hmem, hrow, -⟩ := sameInputs_of_step hstep
    rw [mpos_eq_of_closer hstep (by omega) (by omega)] at hframe
    exact ⟨P, fun i hi => (readBit_congr hmem hrow _).symm.trans (hframe i hi), hok, hsink ▸ hgrown⟩

/-- Settles O53: `EMIT` is seven steps from `SKIP`, where the occurrence is all that is known of the candidate. -/
theorem onlyFramesAreAccepted : Obligations.OnlyFramesAreAccepted := by
  intro s t hp hocc hrun hne
  have hfar : Phase.toEmit s.phase = 6 + 1 := by rw [hp]; rfl
  have hv : s.Vetted s.phase := by rw [hp]; exact hocc
  exact frame_of_sink_ne hfar (by decide) hv hrun hne

end Sys2Proof.Machine
end

section
/-! PROOFS. The distance of emitted candidates (R103, R107): no occurrence lies inside an emitted candidate's body, so
the search that follows it finds the next one 130 bits on or later, and `count` is bounded by the buffer's length. -/

namespace Sys2Proof.Machine

/-! ### The candidates still to come -/

/-- Every candidate in hand or still to come in the invocation lies at `b` or later. -/
def State.Beyond (s : State) (b : Nat) : Phase → Prop
  | .search => ∀ p, s.cursor ≤ p → s.occursAt p → b ≤ p
  | .resume => ∀ p, s.cursor ≤ p → s.occursAt p → b ≤ p
  | .guard => b ≤ s.mpos
  | .skip => b ≤ s.mpos
  | .mdec => b ≤ s.mpos
  | .lenchk => b ≤ s.mpos
  | .postchk => b ≤ s.mpos
  | .crcchk => b ≤ s.mpos
  | .extract => b ≤ s.mpos
  | .emit => b ≤ s.mpos
  | .idle => True
  | .finish => True
  | .done => True

theorem beyond_popPort {s : State} {b : Nat} {p : Phase} (h : s.Beyond b p) : s.popPort.Beyond b p := by
  cases p with
  | _ => exact h

/-- A candidate at `b` or later, the cursor behind its preamble, leaves only later ones to come. -/
theorem beyond_of_mpos {s : State} {b : Nat} (hcursor : s.cursor = s.mpos + 8) (hb : b ≤ s.mpos) :
    ∀ p, s.cursor ≤ p → s.occursAt p → b ≤ p :=
  fun p hp _ => by omega

/-- The operation of a phase leaves no earlier candidate to come. -/
theorem PhaseStep.keeps_beyond {s t : State} {b : Nat} (h : PhaseStep s t) (hv : s.Vetted s.phase)
    (hb : s.Beyond b s.phase) : t.Beyond b t.phase := by
  cases h with
  | rest => exact hb
  | found hp hle hocc => rw [hp] at hb; exact hb _ hle hocc
  | bodyFits hp => rw [hp] at hb; exact hb
  | skip hp => rw [hp] at hb; exact hb
  | decoded hp => rw [hp] at hb; exact hb
  | lengthOk hp => rw [hp] at hb; exact hb
  | lengthBad hp => rw [hp] at hb hv; exact beyond_of_mpos hv.2.1 hb
  | postOk hp => rw [hp] at hb; exact hb
  | postBad hp => rw [hp] at hb hv; exact beyond_of_mpos hv.2.1 hb
  | crcOk hp => rw [hp] at hb; exact hb
  | crcBad hp => rw [hp] at hb hv; exact beyond_of_mpos hv.1 hb
  | extract hp => rw [hp] at hb; exact hb
  | emit hp => rw [hp] at hb hv; exact beyond_of_mpos hv.1 hb
  | resume hp => rw [hp] at hb; exact hb
  | _ => trivial

/-- `EMIT` leaves candidates to come that lie 130 bits or more behind the one it hands over: there is none in a valid
body (R85 (f)). -/
theorem beyond_of_emit {s : State} (hv : s.Vetted .emit) :
    ∀ p, s.cursor ≤ p → s.occursAt p → s.mpos + 130 ≤ p := by
  obtain ⟨hcursor, hfit, hframe, -⟩ := hv
  obtain ⟨-, hbody, -⟩ := (holdsFrame_iff (by omega)).mp hframe
  intro p hp hocc
  by_contra hnear
  exact noPreambleInsideAValidBody s (s.mpos + 8) (fun k hk => (holdsBody_iff.mp hbody k hk).1) p (by omega) (by omega)
    hocc

/-! ### Along an invocation -/

/-- A host that never raises `rst` has not raised it after a step either. -/
theorem quiet_of_step {s t : State} (hq : s.quiet) (h : step s = .next t) : t.quiet := by
  obtain ⟨-, -, hinputs⟩ := sameInputs_of_step h
  intro p hp
  rw [hinputs] at hp
  exact hq.popPort p hp

/-- A property that the operation of a phase keeps holds wherever a run of busy steps with `rst` low leads. -/
theorem keeps_along_busy_run {J : State → Prop} (hJ : ∀ u v, J u → PhaseStep u.popPort v → J v)
    {s t : State} {k : Nat} (hs : J s) (hq : s.quiet) (hrun : runs k s = .next t)
    (hbusy : ∀ j u, j < k → runs j s = .next u → u.busy = true) : J t ∧ t.quiet := by
  induction k generalizing s with
  | zero => exact next_inj.mp hrun ▸ ⟨hs, hq⟩
  | succ k ih =>
    obtain ⟨u, hstep, hrest⟩ := runs_succ_next hrun
    have hphase := phaseStep_of_busy (port_rst_of_quiet hq) (hbusy 0 s (Nat.succ_pos k) rfl) hstep
    exact ih (hJ s u hs hphase) (quiet_of_step hq hstep) hrest
      fun j v hj hv => hbusy (j + 1) v (by omega) ((runs_succ_of_step hstep j).trans hv)

/-- Within an invocation: the candidate in hand is vetted, those to come lie at 130 bits for each record counted or
later, and the records counted fit in the buffer. -/
structure State.Spaced (s : State) : Prop where
  vetted : s.Vetted s.phase
  beyond : s.Beyond (130 * s.count) s.phase
  fits : 0 < s.count → 130 * s.count + 8 ≤ s.nbits

theorem spaced_startInvocation (s : State) (n : Nat) : (s.startInvocation n).Spaced where
  vetted := trivial
  beyond := fun p _ _ => Nat.zero_le p
  fits := fun h => absurd h (lt_irrefl 0)

theorem PhaseStep.keeps_spaced {s t : State} (h : PhaseStep s t) (hs : s.Spaced) : t.Spaced := by
  have hvetted := h.keeps_vetted hs.vetted
  by_cases hp : s.phase = .emit
  · obtain rfl := h.eq_of_emit hp
    have hv := hs.vetted
    have hb := hs.beyond
    rw [hp] at hv hb
    have hmpos : 130 * s.count ≤ s.mpos := hb
    have hfit := hv.2.1
    refine ⟨hvetted, fun p hcursor hocc => ?_, fun _ => ?_⟩
    · have hnext : s.mpos + 130 ≤ p := beyond_of_emit hv p hcursor hocc
      show 130 * (s.count + 1) ≤ p
      omega
    · show 130 * (s.count + 1) + 8 ≤ s.nbits
      omega
  · have hcount := (h.sink_count hp).2
    exact ⟨hvetted, hcount ▸ h.keeps_beyond hs.vetted hs.beyond, by rw [hcount, h.nbits_eq]; exact hs.fits⟩

/-- Sampling the ports touches nothing of it. -/
theorem spaced_popPort {s : State} (h : s.Spaced) : s.popPort.Spaced :=
  ⟨vetted_popPort h.vetted, beyond_popPort h.beyond, h.fits⟩

/-- A record handed over at `u` puts every later candidate of the invocation 130 bits or more behind (R103). -/
theorem mpos_of_later_emit {u t : State} {k : Nat} (hu : u.Vetted .emit) (hq : u.quiet) (hemit : u.phase = .emit)
    (hk : 0 < k) (hrun : runs k u = .next t) (hbusy : ∀ j v, j < k → runs j u = .next v → v.busy = true)
    (htemit : t.phase = .emit) : u.mpos + 130 ≤ t.mpos := by
  obtain ⟨i, rfl⟩ := Nat.exists_eq_succ_of_ne_zero hk.ne'
  obtain ⟨v, hstep, hrest⟩ := runs_succ_next hrun
  have hphase := phaseStep_of_busy (port_rst_of_quiet hq) (hbusy 0 u hk rfl) hstep
  obtain rfl := hphase.eq_of_emit hemit
  obtain ⟨⟨-, hbeyond⟩, -⟩ := keeps_along_busy_run (s := u.popPort.emitRecord.goto .resume)
    (J := fun w => w.Vetted w.phase ∧ w.Beyond (u.mpos + 130) w.phase)
    (fun w x ⟨hv, hb⟩ hwx => ⟨hwx.keeps_vetted (vetted_popPort hv),
      hwx.keeps_beyond (vetted_popPort hv) (beyond_popPort hb)⟩)
    ⟨show u.cursor = u.mpos + 8 from hu.1, beyond_of_emit (s := u.popPort) (vetted_popPort hu)⟩
    (quiet_of_step hq hstep) hrest
    fun j w hj hw => hbusy (j + 1) w (by omega) ((runs_succ_of_step hstep j).trans hw)
  rw [htemit] at hbeyond
  exact hbeyond

/-- Settles O49: every state of the invocation is spaced, which bounds `count` by the latched length, and an `EMIT`
state puts the later ones behind it. -/
theorem emittedFramesLieFarApart : Obligations.EmittedFramesLieFarApart := by
  intro s k t hrest hstart _ hq hk hrun hall
  obtain ⟨i, rfl⟩ := Nat.exists_eq_succ_of_ne_zero hk.ne'
  have hfirst := step_of_start hrest (port_rst_of_quiet hq) hstart
  have hbusy (j : Nat) (u : State) (hj : j < i) (hu : runs j (s.popPort.startInvocation s.port.nbits) = .next u) :
      u.busy = true := hall (j + 1) u (Nat.succ_pos j) (by omega) ((runs_succ_of_step hfirst j).trans hu)
  have hspaced {j : Nat} {u : State} (hj : j ≤ i) (hu : runs j (s.popPort.startInvocation s.port.nbits) = .next u) :
      (u.Spaced ∧ u.nbits = s.port.nbits) ∧ u.quiet :=
    keeps_along_busy_run (J := fun w => w.Spaced ∧ w.nbits = s.port.nbits)
      (fun w x ⟨hw, hn⟩ hwx => ⟨hwx.keeps_spaced (spaced_popPort hw), hwx.nbits_eq.trans hn⟩)
      ⟨spaced_startInvocation _ _, rfl⟩ (quiet_of_step hq hfirst) hu fun l v hl => hbusy l v (by omega)
  rw [Nat.succ_eq_add_one, runs_succ_of_step hfirst] at hrun
  obtain ⟨⟨⟨-, -, hfits⟩, hnbits⟩, -⟩ := hspaced le_rfl hrun
  rw [hnbits] at hfits
  refine ⟨by omega, by omega, fun j u hj hjk hu hemit htemit => ?_⟩
  obtain ⟨j, rfl⟩ := Nat.exists_eq_succ_of_ne_zero hj.ne'
  rw [Nat.succ_eq_add_one, runs_succ_of_step hfirst] at hu
  obtain ⟨⟨hu_spaced, -⟩, hu_quiet⟩ := hspaced (by omega) hu
  have hlater : runs (i - j) u = .next t := by rw [← runs_add hu, Nat.add_sub_cancel' (by omega), hrun]
  exact mpos_of_later_emit (hemit ▸ hu_spaced.vetted) hu_quiet hemit (by omega) hlater
    (fun l v hl hv => hbusy (j + l) v (by omega) ((runs_add hu l).trans hv)) htemit

end Sys2Proof.Machine
end

section
/-! PROOFS. The decoder beside its main path (R116 to R118): a row that ends within the body, the symbols as single
steps, the per-pair form, and a single raw bit error. -/

namespace Sys2Proof.Machine

/-! ### A row that ends within the body -/

/-- Settles O17: no read faults, because the pairs below `nbits` are valid and so in the row; the loop takes them all
and stops where no pair is left. -/
theorem mdecStopsWhereTheRowEnds : Obligations.MdecStopsWhereTheRowEnds := by
  intro s n hn hvalid hend
  rcases execMdec_spec s with ⟨t, k, hexec, hloop⟩ | ⟨-, k, -, hin, hout, -⟩
  · have hkn : k = n := by
      rcases Nat.lt_trichotomy k n with hlt | heq | hgt
      · obtain ⟨hpair, hfit⟩ := hvalid k hlt
        rcases hloop.stop with ⟨rfl, -⟩ | ⟨-, -, -, -, heq⟩ | ⟨-, hshort, -⟩
        · omega
        · exact absurd heq (validPair_iff.mp hpair).2
        · exact absurd hshort (not_lt.mpr hfit)
      · exact heq
      · exact absurd (hloop.valid n hgt).1 (not_le.mpr hend)
    subst hkn
    have hdcur : t.dcur = s.dcur + 2 * k := by
      rcases hloop.stop with ⟨rfl, -⟩ | ⟨-, hfit, -⟩ | ⟨-, -, hd⟩
      · omega
      · exact absurd hfit (not_le.mpr hend)
      · exact hd
    refine ⟨t.P, hdcur ▸ hexec, fun j hj => ?_⟩
    simpa [State.pairValue] using hloop.bits le_rfl j hj
  · have hkn : k < n := by
      by_contra hge
      omega
    exact absurd (validPair_iff.mp (hvalid k hkn).1).1 (not_le.mpr hout)

/-! ### The symbols -/

/-- A valid symbol is one pair's step on its bit. -/
theorem exec_validSymbol (b : Bool) (s : State) :
    exec (if b then .ms1 else .ms0) s = .next (s.symbolStep (some b)) := by
  cases b with
  | false => rfl
  | true => rfl

/-- With room for a pair and for a bit, a symbol is consumed (R110, R113). -/
theorem symbolStep_of_room {s : State} (hndec : s.ndec < 64) (hfit : s.dcur + 2 ≤ s.nbits) (v : Option Bool) :
    s.symbolStep v = match v with
      | some b => (s.takeBit b).goto (if s.ndec + 1 < 64 then .mdec else .lenchk)
      | none => s.takeInvalid.goto .lenchk :=
  if_pos ⟨hndec, hfit⟩

/-- With 64 bits decoded or no pair left, no symbol is consumed (R110, R116). -/
theorem symbolStep_of_no_room {s : State} (h : 64 ≤ s.ndec ∨ s.nbits < s.dcur + 2) (v : Option Bool) :
    s.symbolStep v = s.goto .lenchk :=
  if_neg fun ⟨hndec, hfit⟩ => h.elim (fun hfull => absurd hndec (not_lt.mpr hfull))
    fun hshort => absurd hfit (not_le.mpr hshort)

/-- Settles O18: with room, a valid symbol ORs its bit in at `ndec` and an invalid one moves `dcur`; with none, all four
only go to `LENCHK`. -/
theorem symbolsConsumeOnePair : Obligations.SymbolsConsumeOnePair := by
  refine fun s => ⟨fun hndec hfit => ⟨fun b => ⟨porBit s.P s.ndec b, ?_, fun k _ => ?_⟩, ?_, ?_⟩, fun hnone i hi => ?_⟩
  · rw [exec_validSymbol, symbolStep_of_room hndec hfit]
    rfl
  · rw [pbit_porBit s.P hndec b k, decide_eq_decide.mpr (eq_comm (a := s.ndec))]
  · exact congrArg _ (symbolStep_of_room hndec hfit none)
  · exact congrArg _ (symbolStep_of_room hndec hfit none)
  · have hstep := symbolStep_of_no_room hnone
    simp only [List.mem_cons, List.not_mem_nil, or_false] at hi
    rcases hi with rfl | rfl | rfl | rfl
    · exact congrArg _ (hstep (some false))
    · exact congrArg _ (hstep (some true))
    · exact congrArg _ (hstep none)
    · exact congrArg _ (hstep none)

/-! ### The per-pair form (R117) -/

/-- The symbol a pair decodes to takes one step on the pair's bit, or on none. -/
theorem exec_decodeMsym2 (pair : BitVec 2) (s : State) :
    exec (decodeMsym2 Config.mcOne pair) s = .next (s.symbolStep (pairBit Config.mcOne pair)) := by
  unfold decodeMsym2
  cases pairBit Config.mcOne pair with
  | some b =>
    cases b with
    | false => rfl
    | true => rfl
  | none => cases pair.getLsbD 0 with
    | false => rfl
    | true => rfl

/-- Outside `MDEC` the per-pair decoder has stopped. -/
theorem pairSteps_of_ne {s : State} (hp : s.phase ≠ .mdec) (n : Nat) : pairSteps n s = .next s := by
  cases n with
  | zero => rfl
  | succ n => exact if_neg hp

/-- One per-pair step that answers a next state. -/
theorem pairSteps_succ {s t : State} (hp : s.phase = .mdec) (h : pairStep s = .next t) (n : Nat) :
    pairSteps (n + 1) s = pairSteps n t := by
  rw [pairSteps, if_pos hp, h]

theorem goto_self {s : State} {p : Phase} (h : s.phase = p) : s.goto p = s := by
  subst h
  rfl

/-- With no pair to consume the per-pair decoder goes on to `LENCHK` (R110, R116). -/
theorem pairSteps_of_no_room {s : State} (hp : s.phase = .mdec) (h : ¬ (s.ndec < 64 ∧ s.dcur + 2 ≤ s.nbits))
    (n : Nat) : pairSteps (n + 1) s = .next (s.goto .lenchk) := by
  have hstep : pairStep s = .next (s.goto .lenchk) := if_neg h
  rw [pairSteps_succ hp hstep, pairSteps_of_ne (by simp)]

/-- With room, the per-pair decoder runs the symbol it reads, or faults where a bit is missing. -/
theorem pairStep_of_room {s : State} (hndec : s.ndec < 64) (hfit : s.dcur + 2 ≤ s.nbits) :
    pairStep s = match s.memRead s.dcur 2 with
      | some pair => .next (s.symbolStep (pairBit Config.mcOne pair))
      | none => .fault .bitOutsideRow := by
  have hroom : s.ndec < Config.decLen ∧ s.dcur + Config.symLen ≤ s.nbits := ⟨hndec, hfit⟩
  rw [pairStep, if_pos hroom]
  cases s.memRead s.dcur Config.symLen with
  | none => rfl
  | some pair => exact exec_decodeMsym2 pair s

/-- The per-pair decoder with `n` bits to come, and a step to spare, ends as the loop of `n` pairs does. -/
theorem pairSteps_eq_mdecLoop (n : Nat) {s : State} (hp : s.phase = .mdec) (hn : s.ndec + n = 64) :
    pairSteps (n + 1) s = orFault ((mdecLoop n s).map fun t => t.goto .lenchk) := by
  induction n generalizing s with
  | zero => exact pairSteps_of_no_room hp (by omega) 0
  | succ n ih =>
    rw [mdecLoop]
    by_cases hfit : s.dcur + Config.symLen ≤ s.nbits
    · have hndec : s.ndec < 64 := by omega
      have hstep := pairStep_of_room hndec hfit
      rw [if_pos hfit]
      cases hread : s.memRead s.dcur Config.symLen with
      | none =>
        rw [hread] at hstep
        rw [pairSteps, if_pos hp, hstep]
        rfl
      | some pair =>
        rw [hread] at hstep
        rw [pairSteps_succ hp hstep, symbolStep_of_room hndec hfit]
        cases hbit : pairBit Config.mcOne pair with
        | none =>
          simp only [hbit]
          exact pairSteps_of_ne (by simp) _
        | some b =>
          simp only [hbit]
          by_cases hmore : s.ndec + 1 < 64
          · rw [if_pos hmore, goto_self (s := s.takeBit b) hp]
            exact ih (s := s.takeBit b) hp (by rw [takeBit_ndec]; omega)
          · obtain rfl : n = 0 := by omega
            rw [if_neg hmore]
            exact pairSteps_of_ne (by simp) _
    · rw [if_neg hfit, pairSteps_of_no_room hp fun h => hfit h.2]
      rfl

/-- Settles O19: from a fresh scratch `MDEC` is its loop of 64 pairs, then `LENCHK`. -/
theorem perPairDecoderAgrees : Obligations.PerPairDecoderAgrees := by
  intro s hp hndec hP
  have hfresh : { s with P := pzero, ndec := 0 } = s := by rw [← hP, ← hndec]
  have hmdec : exec .mdec s = orFault ((mdecLoop 64 { s with P := pzero, ndec := 0 }).map fun t => t.goto .lenchk) :=
    rfl
  rw [hmdec, hfresh]
  exact pairSteps_eq_mdecLoop 64 hp (by omega)

/-! ### A single raw bit error (R118 (d)) -/

/-- The state with the raw bit at `i` flipped. -/
abbrev State.flipBit (s : State) (i : Nat) : State :=
  { s with mem := Memory.setBit s.mem i (!Memory.bit s.mem i) }

/-- A flipped bit elsewhere leaves a pair valid. -/
theorem validPair_flipBit {s : State} {i d k : Nat} (hwf : Memory.wf s.mem) (h : s.validPair d k)
    (hfirst : i ≠ d + 2 * k) (hsecond : i ≠ d + 2 * k + 1) : (s.flipBit i).validPair d k := by
  rw [validPair_iff] at h ⊢
  simpa only [bit_setBit hwf, if_neg hfirst, if_neg hsecond] using h

/-- A flipped bit of a valid pair makes it an invalid one. -/
theorem invalidPair_flipBit {s : State} {i d k : Nat} (hwf : Memory.wf s.mem) (h : s.validPair d k)
    (hi : i = d + 2 * k ∨ i = d + 2 * k + 1) : (s.flipBit i).invalidPair d k := by
  obtain ⟨hrow, hne⟩ := validPair_iff.mp h
  refine invalidPair_iff.mpr ⟨hrow, ?_⟩
  rcases hi with rfl | rfl
  · rw [bit_setBit hwf, bit_setBit hwf, if_pos rfl, if_neg (by omega)]
    exact Bool.not_eq.mpr hne
  · rw [bit_setBit hwf, bit_setBit hwf, if_pos rfl, if_neg (by omega)]
    exact Bool.eq_not_of_ne hne

/-- `LENCHK` turns a short decode away (R115). -/
theorem exec_lenchk_of_ne {u : State} (h : u.ndec ≠ 64) : exec .lenchk u = .next { u with phase := .resume } := by
  rw [exec_lenchk, if_neg h]
  rfl

/-- Settles O21: the pair of the flipped bit is the first invalid one, so the decode ends there, short of 64 bits. -/
theorem singleRawBitErrorIsRejected : Obligations.SingleRawBitErrorIsRejected := by
  intro s i hwf hfit hvalid hlow hhigh
  obtain ⟨n, hn⟩ : ∃ n, i = s.dcur + 2 * n ∨ i = s.dcur + 2 * n + 1 := ⟨(i - s.dcur) / 2, by omega⟩
  have hn64 : n < 64 := by omega
  obtain ⟨P, hexec, -⟩ := mdecDecodesTheBody.2.2 (s.flipBit i) n (by omega) hfit
    (fun k hk => validPair_flipBit (d := s.dcur) hwf (hvalid k (by omega)) (by omega) (by omega))
    (fun _ => invalidPair_flipBit hwf (hvalid n hn64) hn)
  exact ⟨_, hexec, hn64, exec_lenchk_of_ne hn64.ne⟩

end Sys2Proof.Machine
end

section
/-! PROOFS. The patterns `POST2` and `FRAME64` as what the operations that read them do (log 1), and the checksum's
properties (R128): a message followed by its checksum leaves zero, and no one or two flipped bits do. -/

namespace Sys2Proof.Machine

/-! ### The postambles -/

/-- The two bits of a word are never too wide for `POST2`. -/
theorem decode_post2 (mc : McOne) (w : BitVec 2) : decode mc .post2 w.toNat = decodePost2 w := by
  have hwidth : w.toNat < 2 ^ formatWidth .post2 := w.isLt
  simp only [decode, if_pos hwidth, BitVec.ofNat_toNat, BitVec.setWidth_eq]

theorem postIs_eq (s : State) (l : Bool) : s.postIs l = decide (s.dcur + 2 ≤ s.nbits ∧ pbit s.P 63 = l) :=
  (Bool.decide_and ..).symm

/-- With a pair read, the verdict is whether it is the last decoded bit's postamble (R120, R121). -/
theorem exec_postchk_of_read {s : State} {pair : BitVec 2} (hfit : s.dcur + 2 ≤ s.nbits)
    (hread : s.memRead s.dcur 2 = some pair) :
    exec .postchk s = .next (s.afterPost (decide (pair = Config.post s.lastBit))) := by
  refine exec_postchk_of_postOk ?_
  simp only [State.postOk, Config.postLen, if_pos hfit, hread]

/-- The two postambles differ (R63). -/
theorem post_inj {l m : Bool} : Config.post l = Config.post m ↔ m = l := by
  revert l m
  decide

/-- `POSTCHK` on a postamble is the meaning of that postamble (log 1). -/
theorem exec_postchk_of_post {s : State} {l : Bool} (hfit : s.dcur + 2 ≤ s.nbits)
    (hread : s.memRead s.dcur 2 = some (Config.post l)) :
    exec .postchk s = .next (s.afterPost (s.postIs l)) := by
  rw [exec_postchk_of_read hfit hread, postIs_eq]
  simp only [post_inj, hfit, true_and, lastBit_eq]

/-- Settles O23: each postamble tests its own bit, and a pair that `POSTCHK` reads is one of the two or neither. -/
theorem postamblesArePostchk : Obligations.PostamblesArePostchk := by
  have meaning (s : State) (l : Bool) : (.next (s.afterPost (s.postIs l)) : Result) = .next { s with
      phase := if s.dcur + 2 ≤ s.nbits ∧ pbit s.P 63 = l then .crcchk else .resume } := by
    rw [postIs_eq, afterPost_decide]
    rfl
  refine fun s => ⟨meaning s false, meaning s true, fun pair hfit hread => ?_⟩
  rw [decode_post2]
  unfold decodePost2
  by_cases h0 : pair = Config.post false
  · rw [if_pos h0]
    exact exec_postchk_of_post hfit (h0 ▸ hread)
  · by_cases h1 : pair = Config.post true
    · rw [if_neg h0, if_pos h1]
      exact exec_postchk_of_post hfit (h1 ▸ hread)
    · have hneither : ¬ pair = Config.post s.lastBit := by
        cases s.lastBit with
        | false => exact h0
        | true => exact h1
      rw [if_neg h0, if_neg h1]
      simp only
      rw [exec_postchk_of_read hfit hread, decide_eq_false hneither]
      rfl

/-! ### The frame's layout -/

theorem toNat_append_byte {n : Nat} (x : BitVec n) (b : Byte) : (x ++ b).toNat = x.toNat * 2 ^ 8 + b.toNat := by
  rw [BitVec.toNat_append, ← Nat.shiftLeft_add_eq_or_of_lt b.isLt, Nat.shiftLeft_eq]

/-- The payload registers read as one 64-bit value have the fields of R64's table. -/
theorem decodeFrame64_pword (P : Payload) : decodeFrame64 (pword P) = .frame (pbyte P 0 ++ pbyte P 1 ++ pbyte P 2)
    (pbyte P 3) (pbyte P 4) (pbyte P 5) (pbyte P 6) (pbyte P 7) := by
  refine decodeFrame64_of_toNat ?_
  simp only [pword, toNat_append_byte]
  omega

/-- Settles O29: the frame's fields are the bytes `EXTRACT` reads. -/
theorem frameLayoutIsExtract : Obligations.FrameLayoutIsExtract := by
  refine ⟨fun s => ⟨_, decode_frame64 _ (pword s.P), ?_⟩, fun u f t d x c s => rfl⟩
  rw [decodeFrame64_pword]
  rfl

/-! ### The register of the checksum -/

theorem crcShifts_add (m n : Nat) (r : Byte) : crcShifts (m + n) r = crcShifts n (crcShifts m r) := by
  induction m generalizing r with
  | zero => rw [Nat.zero_add]; rfl
  | succ m ih => rw [Nat.succ_add]; exact ih (crcShift r)

/-- A shift loses nothing: the polynomial enters at the top, where a shifted register has a zero. -/
theorem eq_zero_of_crcShift {v : Byte} (h : crcShift v = 0#8) : v = 0#8 := by
  unfold crcShift at h
  split at h
  · have htop := congrArg (BitVec.getLsbD · 7) h
    simp [Config.crcPolyReflected] at htop
  · rename_i hlow
    refine BitVec.eq_of_getLsbD_eq fun i _ => ?_
    cases i with
    | zero => simpa using hlow
    | succ i =>
      have hbit := congrArg (BitVec.getLsbD · i) h
      simpa [Nat.add_comm] using hbit

theorem eq_zero_of_crcShifts {n : Nat} {v : Byte} (h : crcShifts n v = 0#8) : v = 0#8 := by
  induction n generalizing v with
  | zero => exact h
  | succ n ih => exact eq_zero_of_crcShift (ih h)

theorem crcShifts_zero (n : Nat) : crcShifts n 0#8 = 0#8 := by
  induction n with
  | zero => rfl
  | succ n ih => rw [crcShifts, crcShift_zero, ih]

theorem crcShifts_inj {n : Nat} {v w : Byte} : crcShifts n v = crcShifts n w ↔ v = w := by
  refine ⟨fun h => ?_, fun h => h ▸ rfl⟩
  have hzero : crcShifts n (v ^^^ w) = 0#8 := by rw [crcShifts_xor, h, BitVec.xor_self]
  exact BitVec.xor_eq_zero_iff.mp (eq_zero_of_crcShifts hzero)

/-- A byte leaves the register at zero exactly when it is what the register holds. -/
theorem crcByte_eq_zero {r b : Byte} : crcByte r b = 0#8 ↔ r = b := by
  rw [crcByte_eq, BitVec.xor_eq_zero_iff, crcShifts_inj]

theorem crcByte_xor (r t x y : Byte) : crcByte (r ^^^ t) (x ^^^ y) = crcByte r x ^^^ crcByte t y := by
  rw [crcByte, crcByte, crcByte, ← crcShifts_xor]
  congr 1
  ac_rfl

/-! ### Residue and linearity (R128 (a) to (c)) -/

/-- The register after two messages of one length XORed is the XOR of the registers. -/
theorem foldl_crcByte_xor {a b : List Byte} (h : a.length = b.length) (r t : Byte) :
    (List.zipWith (· ^^^ ·) a b).foldl crcByte (r ^^^ t) = a.foldl crcByte r ^^^ b.foldl crcByte t := by
  induction a generalizing b r t with
  | nil =>
    obtain rfl := List.length_eq_zero_iff.mp h.symm
    rfl
  | cons x a ih =>
    cases b with
    | nil => cases h
    | cons y b =>
      rw [List.zipWith_cons_cons, List.foldl_cons, List.foldl_cons, List.foldl_cons, crcByte_xor]
      exact ih (Nat.succ.inj h) _ _

/-- The checksum is linear on messages of one length (R128 (c)). -/
theorem crc8_zipWith_xor {a b : List Byte} (h : a.length = b.length) :
    crc8 (List.zipWith (· ^^^ ·) a b) = crc8 a ^^^ crc8 b := foldl_crcByte_xor h 0#8 0#8

/-- Zero bytes shift the register (R124). -/
theorem foldl_crcByte_zeros (n : Nat) (r : Byte) : (List.replicate n 0#8).foldl crcByte r = crcShifts (8 * n) r := by
  induction n generalizing r with
  | zero => rfl
  | succ n ih =>
    rw [List.replicate_succ, List.foldl_cons, ih, crcByte, BitVec.xor_zero, Nat.mul_succ, Nat.add_comm, crcShifts_add]

/-- The payload's bytes are those the checksum covers and the checksum's (R129). -/
theorem payload_toList (P : Payload) : P.toList = pdata P ++ [pbyte P 7] := by
  have hbyte : pbyte P 7 = P.toList[7]'(by simp) := (pbyte_eq P (by decide)).trans (by simp)
  rw [hbyte, pdata, Config.crcBytes, List.take_append_getElem, List.take_of_length_le (by simp)]

/-- The check of a payload is a zero checksum of all eight bytes (R128 (b)). -/
theorem crcOk_iff (P : Payload) : crcOk P = true ↔ crc8 P.toList = 0#8 := by
  rw [payload_toList, crc8_snoc, crcByte_eq_zero]
  exact decide_eq_true_iff

/-- Settles O26: zero bytes leave a zero register, a register takes in its own value to zero, and the fold is linear. -/
theorem checksumResidueAndLinearity : Obligations.ChecksumResidueAndLinearity := by
  refine ⟨?_, fun m => ?_, crcOk_iff, fun a b h => crc8_zipWith_xor h⟩
  · exact (foldl_crcByte_zeros 7 0#8).trans (crcShifts_zero _)
  · rw [crc8_snoc, crcByte_eq_zero]

end Sys2Proof.Machine
end

section
/-! PROOFS. Every single-bit and double-bit error in the decoded bits is detected (R128 (d)). A flipped bit adds to the
checksum the register 1 shifted as often as the bit has places behind it, and 1 comes back to itself only after more
shifts than a payload has bits. -/

namespace Sys2Proof.Machine

/-! ### The checksum of a payload's bytes -/

/-- The checksum of eight bytes given by their indices. -/
def crcOf (f : Nat → Byte) : Byte := crc8 ((List.range 8).map f)

theorem crcOf_pbyte (P : Payload) : crc8 P.toList = crcOf (pbyte P) := by
  rw [payload_toList, pdata_eq]
  rfl

theorem crcOf_xor (f g : Nat → Byte) : crcOf (fun i => f i ^^^ g i) = crcOf f ^^^ crcOf g := by
  have hlength : ((List.range 8).map f).length = ((List.range 8).map g).length := by simp
  rw [crcOf, crcOf, crcOf, ← crc8_zipWith_xor hlength]
  simp [List.zipWith_map]

theorem crcOf_congr {f g : Nat → Byte} (h : ∀ i, i < 8 → f i = g i) : crcOf f = crcOf g := by
  rw [crcOf, crcOf, List.map_congr_left fun i hi => h i (List.mem_range.mp hi)]

/-! ### One flipped bit -/

/-- The bytes that have decoded bit `k` set and no other (R112). -/
def unitByte (k i : Nat) : Byte := if i = k / 8 then 1#8 <<< (7 - k % 8) else 0#8

theorem unitByte_bit {k i j : Nat} (hj : j < 8) : (unitByte k i).getLsbD (7 - j) = decide (8 * i + j = k) := by
  unfold unitByte
  split
  · rename_i hi
    have hone : (1#8 <<< (7 - k % 8)).getLsbD (7 - j) = decide (7 - j = 7 - k % 8) := by
      rw [BitVec.getLsbD_shiftLeft]
      by_cases heq : 7 - j = 7 - k % 8
      · simp [heq, show 7 - k % 8 < 8 by omega]
      · simp [heq]
        omega
    rw [hone]
    exact decide_eq_decide.mpr (by omega)
  · rename_i hi
    rw [decide_eq_false (by omega)]
    simp

/-- How many shifts the register makes from the one that takes decoded bit `k` in on: the bits of a byte are taken in
from the last decoded one to the first (R124). -/
def shiftsFrom (k : Nat) : Nat := 57 - 8 * (k / 8) + k % 8

/-- A byte among zero bytes. -/
theorem map_range_ite {q : Nat} (hq : q < 8) (b : Byte) : ((List.range 8).map fun i => if i = q then b else 0#8)
    = List.replicate q 0#8 ++ b :: List.replicate (7 - q) 0#8 := by
  interval_cases q
  all_goals rfl

/-- A bit of a byte is shifted down to the register's low end before it makes a difference. -/
theorem crcShifts_one_shiftLeft {j : Nat} (hj : j < 8) : crcShifts j (1#8 <<< j) = 1#8 := by
  revert j
  decide

/-- The checksum of the bytes with decoded bit `k` alone. -/
theorem crcOf_unitByte {k : Nat} (hk : k < 64) : crcOf (unitByte k) = crcShifts (shiftsFrom k) 1#8 := by
  have hbytes : (List.range 8).map (unitByte k) = _ := map_range_ite (q := k / 8) (by omega) (1#8 <<< (7 - k % 8))
  have hshifts : 8 + 8 * (7 - k / 8) = (7 - k % 8) + shiftsFrom k := by
    unfold shiftsFrom
    omega
  have hzeros : (List.replicate (k / 8) 0#8).foldl crcByte Config.crcInit = 0#8 :=
    (foldl_crcByte_zeros _ _).trans (crcShifts_zero _)
  rw [crcOf, hbytes, crc8, List.foldl_append, List.foldl_cons, hzeros, foldl_crcByte_zeros, crcByte, BitVec.zero_xor,
    ← crcShifts_add, hshifts, crcShifts_add, crcShifts_one_shiftLeft (by omega)]

/-! ### Two flipped bits -/

/-- The register 1 does not come back to itself within the bits of a payload. -/
theorem crcShifts_one_ne {n : Nat} (hpos : 0 < n) (hn : n < 64) : crcShifts n 1#8 ≠ 1#8 := by
  have hall : ∀ n < 64, 0 < n → crcShifts n 1#8 ≠ 1#8 := by decide
  exact hall n hn hpos

theorem crcShifts_one_inj {a b : Nat} (hab : a < b) (hb : b - a < 64) : crcShifts a 1#8 ≠ crcShifts b 1#8 := by
  intro h
  rw [show b = (b - a) + a by omega, crcShifts_add, crcShifts_inj] at h
  exact crcShifts_one_ne (by omega) hb h.symm

/-- Two flipped bits do not cancel in the checksum. -/
theorem crcOf_unitByte_ne {k l : Nat} (hk : k < 64) (hl : l < 64) (hne : k ≠ l) :
    crcOf (unitByte k) ≠ crcOf (unitByte l) := by
  rw [crcOf_unitByte hk, crcOf_unitByte hl]
  rcases Nat.lt_trichotomy (shiftsFrom k) (shiftsFrom l) with hlt | heq | hgt
  · exact crcShifts_one_inj hlt (by unfold shiftsFrom; omega)
  · unfold shiftsFrom at heq
    omega
  · exact (crcShifts_one_inj hgt (by unfold shiftsFrom; omega)).symm

/-- The bytes with decoded bits `k` and `l` set, one bit when they are equal. -/
def errorByte (k l i : Nat) : Byte := if k = l then unitByte k i else unitByte k i ^^^ unitByte l i

theorem errorByte_bit {k l i j : Nat} (hj : j < 8) :
    (errorByte k l i).getLsbD (7 - j) = decide (8 * i + j = k ∨ 8 * i + j = l) := by
  unfold errorByte
  split
  · rename_i heq
    rw [unitByte_bit hj]
    exact decide_eq_decide.mpr (by rw [← heq, or_self])
  · rename_i hne
    rw [BitVec.getLsbD_xor, unitByte_bit hj, unitByte_bit hj]
    by_cases hk : 8 * i + j = k
    · simp [hk, hne]
    · simp [hk]

/-- No one or two flipped bits leave the checksum as it was. -/
theorem crcOf_errorByte_ne_zero {k l : Nat} (hk : k < 64) (hl : l < 64) : crcOf (errorByte k l) ≠ 0#8 := by
  intro h
  by_cases heq : k = l
  · have hunit : crcOf (errorByte k l) = crcOf (unitByte k) := crcOf_congr fun i _ => if_pos heq
    rw [hunit, crcOf_unitByte hk] at h
    exact absurd (eq_zero_of_crcShifts h) (by decide)
  · have hsum : crcOf (errorByte k l) = crcOf (unitByte k) ^^^ crcOf (unitByte l) :=
      (crcOf_congr fun i _ => if_neg heq).trans (crcOf_xor _ _)
    rw [hsum, BitVec.xor_eq_zero_iff] at h
    exact crcOf_unitByte_ne hk hl heq h

/-- Settles O27: the checksum of the payload with errors is that of the payload XORed with that of the errors. -/
theorem checksumDetectsTwoBitErrors : Obligations.ChecksumDetectsTwoBitErrors := by
  intro P Q k l hk hl hP hbits
  have hQ : ∀ i, i < 8 → pbyte Q i = pbyte P i ^^^ errorByte k l i := fun i hi => byte_ext fun j hj => by
    have hbit := hbits (8 * i + j) (by omega)
    rw [pbit, pbit, show (8 * i + j) / 8 = i by omega, show (8 * i + j) % 8 = j by omega] at hbit
    rw [BitVec.getLsbD_xor, errorByte_bit hj, hbit]
  rw [crcOk_iff, crcOf_pbyte] at hP
  have hsum : crcOf (pbyte Q) = crcOf (errorByte k l) := by
    rw [crcOf_congr hQ, crcOf_xor, hP, BitVec.zero_xor]
  rw [Bool.eq_false_iff, Ne, crcOk_iff, crcOf_pbyte, hsum]
  exact crcOf_errorByte_ne_zero hk hl

end Sys2Proof.Machine
end
